-- ==== Sys2Proof/Word.lean ====
section
/-! DEFINITION. The engine's data types: bytes, 16-byte Blocks, the 32-byte key register and the 4-byte words of
the AES key schedule (00_scope.md R6, 10_state.md R10, 44_aes.md R142). A Block is a sequence of bytes with byte 0
first; only mul_x reads it as a number. -/

namespace Sys2Proof

/-- An unsigned 8-bit value (R6). -/
abbrev Byte := BitVec 8

/-- Exactly 16 bytes, byte 0 first (R6, R60). -/
abbrev Block := Vector Byte 16

/-- The contents of the 32-byte key register, byte 0 first (R13). -/
abbrev KeyMaterial := Vector Byte 32

/-- A key or schedule word of AES: the four bytes (w0, w1, w2, w3) (R142). -/
abbrev AesWord := Vector Byte 4

/-- The all-zero Block 0^128 (R6). -/
def Block.zero : Block := Vector.replicate 16 0

/-- A 32-byte key register that holds only zeros. -/
def KeyMaterial.zero : KeyMaterial := Vector.replicate 32 0

/-- The Block whose bytes are the first 16 of a byte sequence. Every use has at least the bytes it reads; a byte
the sequence lacks reads as 0, so that the function is total. -/
def Block.ofBytes (d : List Byte) : Block := Vector.ofFn fun i => d.getD i.val 0

end Sys2Proof
end

