-- ==== Sys2Proof/Config.lean ====
section
/-! DEFINITION. The parameters the spec fixes for this hardware (00_scope.md R5). The engine has no value that the
spec leaves open and a command could read, so there is no free value here; the AES cipher that R5 allows as an open
parameter is the one of 44_aes.md (Machine/Aes.lean; log entry 10). -/

namespace Sys2Proof.Config

/-- BLOCK_BYTES: the block size, whatever the key size (R5, R62). -/
abbrev blockBytes : Nat := 16

/-- KEY_BYTES of AES-128 (R5). -/
abbrev keyBytes128 : Nat := 16

/-- KEY_BYTES of AES-256 (R5). -/
abbrev keyBytes256 : Nat := 32

/-- The smallest TAG_BYTES (R5). -/
abbrev minTagBytes : Nat := 1

/-- The largest TAG_BYTES (R5). -/
abbrev maxTagBytes : Nat := 16

/-- MAX_UPDATE_BYTES: the largest LEN field value (R5). -/
abbrev maxUpdateBytes : Nat := 65535

/-- Rb: the reduction constant of x^128 + x^7 + x^2 + x + 1 (R5, R64). -/
abbrev rb : BitVec 128 := 0x87

end Sys2Proof.Config
end

