-- ==== Sys2Proof/Syntax.lean ====
section
/-! DEFINITION. The commands of the engine: one constructor per row of spec/opcode_table.json. The opcode chooses
the command (30_encoding.md R52); the fields TLEN and LEN of the word and the payload delivered with it are its
operands, at every value the port can carry, because a command whose fields break R53 is still that command and
answers with a rejection (60_exceptions.md R170 to R178; log entry 8). -/

namespace Sys2Proof

/-- A command with its operands: `tlen` is W[23:16], `len` is W[15:0] (R50, R51) and `p` is the payload, byte 0
first (R36). -/
inductive Instr where
  /-- SETKEY128, OPC 0x01: load an AES-128 key and derive the subkeys (R81). -/
  | setkey128 (tlen : BitVec 8) (len : BitVec 16) (p : List Byte)
  /-- SETKEY256, OPC 0x02: load an AES-256 key and derive the subkeys (R82). -/
  | setkey256 (tlen : BitVec 8) (len : BitVec 16) (p : List Byte)
  /-- UPDATE, OPC 0x03: append the payload to the message (R100). -/
  | update (tlen : BitVec 8) (len : BitVec 16) (p : List Byte)
  /-- DIGEST, OPC 0x04: finish the MAC and return the first `tlen` bytes of the tag (R120). -/
  | digest (tlen : BitVec 8) (len : BitVec 16) (p : List Byte)
  deriving DecidableEq, Repr

end Sys2Proof
end

