-- ==== Sys2Proof/WellFormed.lean ====
section
/-! DEFINITION. The field constraints of 30_encoding.md R53: which commands are well formed. A command that is not
well formed is rejected by its own meaning (Machine/Operands.lean), with the code R178 gives. -/

namespace Sys2Proof

/-- The constraints of R53 on TLEN, LEN and the payload, per opcode. -/
def Instr.wf : Instr → Bool
  | .setkey128 tlen len p =>
    tlen == 0 && len.toNat == Config.keyBytes128 && p.length == len.toNat
  | .setkey256 tlen len p =>
    tlen == 0 && len.toNat == Config.keyBytes256 && p.length == len.toNat
  | .update tlen len p =>
    tlen == 0 && p.length == len.toNat
  | .digest tlen len p =>
    Config.minTagBytes ≤ tlen.toNat && tlen.toNat ≤ Config.maxTagBytes && len == 0 && p.length == len.toNat

/-- The command meets every constraint of R53. -/
abbrev Instr.WellFormed (i : Instr) : Prop := i.wf = true

end Sys2Proof
end

