-- ==== Sys2Proof/Decode.lean ====
section
/-! DEFINITION. The command encoding of 30_encoding.md: fields of the command word (R50, R51), the opcode map (R52),
the decoder, which rejects every reserved opcode by name (R54), the encoder, the rows of the opcode table with match
and mask (R53), and the words the host writes out of the table. The decoder is total: any word with any payload. -/

namespace Sys2Proof

/-- OPC = W[31:24] (R50). -/
def opcField (w : BitVec 32) : BitVec 8 := w.extractLsb' 24 8

/-- TLEN = W[23:16] (R50). -/
def tlenField (w : BitVec 32) : BitVec 8 := w.extractLsb' 16 8

/-- LEN = W[15:0] (R50). -/
def lenField (w : BitVec 32) : BitVec 16 := w.extractLsb' 0 16

/-- The command word with the given fields (R50). -/
def commandWord (opc tlen : BitVec 8) (len : BitVec 16) : BitVec 32 :=
  opc.setWidth 32 <<< 24 ||| tlen.setWidth 32 <<< 16 ||| len.setWidth 32

/-- The opcodes of R52. -/
def opcSetkey128 : BitVec 8 := 0x01
def opcSetkey256 : BitVec 8 := 0x02
def opcUpdate : BitVec 8 := 0x03
def opcDigest : BitVec 8 := 0x04

/-- Why the decoder has no command for a word. -/
inductive DecodeError where
  /-- OPC is 0x00 or 0x05 to 0xFF (R54); the engine answers ERR_OPCODE (R172). -/
  | reservedOpcode (opc : BitVec 8)
  deriving DecidableEq, Repr

/-- The command a request (W, P) stands for: the opcode alone chooses it (R52), and a reserved opcode is rejected
whatever the other fields hold (R54, R172). -/
def decode (w : BitVec 32) (p : List Byte) : Except DecodeError Instr :=
  let opc := opcField w
  if opc = opcSetkey128 then .ok (.setkey128 (tlenField w) (lenField w) p)
  else if opc = opcSetkey256 then .ok (.setkey256 (tlenField w) (lenField w) p)
  else if opc = opcUpdate then .ok (.update (tlenField w) (lenField w) p)
  else if opc = opcDigest then .ok (.digest (tlenField w) (lenField w) p)
  else .error (.reservedOpcode opc)

/-- The request (W, P) of a command (R50, R52). -/
def encode : Instr → BitVec 32 × List Byte
  | .setkey128 tlen len p => (commandWord opcSetkey128 tlen len, p)
  | .setkey256 tlen len p => (commandWord opcSetkey256 tlen len, p)
  | .update tlen len p => (commandWord opcUpdate tlen len, p)
  | .digest tlen len p => (commandWord opcDigest tlen len, p)

/-- One row of the opcode table: a word belongs to it where `w &&& mask = pattern`. -/
structure OpcodeRow where
  mnemonic : String
  pattern : BitVec 32
  mask : BitVec 32
  deriving DecidableEq, Repr

/-- The word lies in the row (R53, column match / mask). -/
abbrev OpcodeRow.Matches (r : OpcodeRow) (w : BitVec 32) : Prop := w &&& r.mask = r.pattern

/-- The four rows of R53, in the table's order. -/
def opcodeTable : List OpcodeRow :=
  [ ⟨"SETKEY128", 0x01000010, 0xFFFFFFFF⟩,
    ⟨"SETKEY256", 0x02000020, 0xFFFFFFFF⟩,
    ⟨"UPDATE", 0x03000000, 0xFFFF0000⟩,
    ⟨"DIGEST", 0x04000000, 0xFF00FFFF⟩ ]

/-- The mnemonic of the command's row. -/
def Instr.mnemonic : Instr → String
  | .setkey128 _ _ _ => "SETKEY128"
  | .setkey256 _ _ _ => "SETKEY256"
  | .update _ _ _ => "UPDATE"
  | .digest _ _ _ => "DIGEST"

/-- The command word that the low `nbits` bits of `w` give: its first 32 bits, every bit above `nbits` 0. -/
def tableWord (nbits w : Nat) : BitVec 32 := BitVec.ofNat 32 (w % 2 ^ nbits)

/-- The payload that follows the word in the same numbering: LEN bytes, payload byte j at bits 32 + 8*j upward,
every bit above `nbits` 0. The engine learns the payload's length from W[15:0] (R55). -/
def tablePayload (nbits w : Nat) : List Byte :=
  (List.range (lenField (tableWord nbits w)).toNat).map fun j => BitVec.ofNat 8 ((w % 2 ^ nbits) >>> (32 + 8 * j))

/-- The command the decoder reads from an instruction whose bits are `w`, numbered as spec/opcode_table.json
numbers them. -/
def decodeTableWord (nbits w : Nat) : Option Instr :=
  (decode (tableWord nbits w) (tablePayload nbits w)).toOption

end Sys2Proof
end

