-- ==== Sys2Proof/Machine/Aes.lean ====
section
/-! DEFINITION. AES-128 and AES-256 encryption as 44_aes.md gives them (R141 to R151): the byte arithmetic, the
S-box, the four round steps, the key expansion and the cipher. The two ciphers are irreducible, so that no proof about
the commands unfolds them by accident; the kernel still evaluates them. The state s[r][c] of R142 is held as the Block whose
byte r + 4*c is s[r][c]. -/

namespace Sys2Proof.Machine

/-- xtime(b) = b times 0x02 in GF(2^8) (R143). -/
def xtime (b : Byte) : Byte := (b <<< 1) ^^^ (if b.msb then 0x1b else 0)

/-- b times 0x03 in GF(2^8) (R143). -/
def mul3 (b : Byte) : Byte := xtime b ^^^ b

/-- The S-box table of R144: entry h is the row of high nibble h, its 16 bytes written in column order from the
most significant byte down. -/
def sboxRows : List Nat :=
  [ 0x637c777bf26b6fc53001672bfed7ab76, 0xca82c97dfa5947f0add4a2af9ca472c0,
    0xb7fd9326363ff7cc34a5e5f171d83115, 0x04c723c31896059a071280e2eb27b275,
    0x09832c1a1b6e5aa0523bd6b329e32f84, 0x53d100ed20fcb15b6acbbe394a4c58cf,
    0xd0efaafb434d338545f9027f503c9fa8, 0x51a3408f929d38f5bcb6da2110fff3d2 ] ++
  [ 0xcd0c13ec5f974417c4a77e3d645d1973, 0x60814fdc222a908846eeb814de5e0bdb,
    0xe0323a0a4906245cc2d3ac629195e479, 0xe7c8376d8dd54ea96c56f4ea657aae08,
    0xba78252e1ca6b4c6e8dd741f4bbd8b8a, 0x703eb5664803f60e613557b986c11d9e,
    0xe1f8981169d98e949b1e87e9ce5528df, 0x8ca1890dbfe6426841992d0fb054bb16 ]

/-- Sbox(a): the table entry at row = high nibble of a, column = low nibble (R144). -/
def sbox (a : Byte) : Byte :=
  BitVec.ofNat 8 (sboxRows.getD (a.toNat / 16) 0 >>> (8 * (15 - a.toNat % 16)))

/-- SubBytes (R145). -/
def subBytes (s : Block) : Block := s.map sbox

/-- ShiftRows: s'[r][c] = s[r][(c + r) mod 4] (R146). -/
def shiftRows (s : Block) : Block :=
  Vector.ofFn fun k =>
    let r := k.val % 4
    let c := k.val / 4
    s[r + 4 * ((c + r) % 4)]'(by omega)

/-- MixColumns (R147): row r of a column is 2 a_r + 3 a_(r+1) + a_(r+2) + a_(r+3), rows counted modulo 4. -/
def mixColumns (s : Block) : Block :=
  Vector.ofFn fun k =>
    let r := k.val % 4
    let c := k.val / 4
    let a (j : Nat) : Byte := s[(r + j) % 4 + 4 * c]'(by omega)
    xtime (a 0) ^^^ mul3 (a 1) ^^^ a 2 ^^^ a 3

/-- The all-zero schedule word: what a schedule reads as past its end, which no round does. -/
def zeroWord : AesWord := Vector.replicate 4 0

/-- AddRoundKey(rd): s[j][c] XOR byte j of schedule word 4*rd + c (R148). -/
def addRoundKey (w : List AesWord) (rd : Nat) (s : Block) : Block :=
  Vector.ofFn fun k => s[k] ^^^ (w.getD (4 * rd + k.val / 4) zeroWord)[k.val % 4]'(by omega)

/-- Byte-wise XOR of two schedule words (R149). -/
def wordXor (a b : AesWord) : AesWord := Vector.zipWith (· ^^^ ·) a b

/-- RotWord (R149). -/
def rotWord (a : AesWord) : AesWord := #v[a[1], a[2], a[3], a[0]]

/-- SubWord (R149). -/
def subWord (a : AesWord) : AesWord := a.map sbox

/-- Rcon[j] (R150); the table starts at 1, and Rcon[0] is never read. -/
def rcon : Nat → Byte
  | 0 => 0
  | 1 => 0x01
  | j + 2 => xtime (rcon (j + 1))

/-- The value t of R149 for schedule word i, from word i-1. -/
def scheduleMix (nk i : Nat) (prev : AesWord) : AesWord :=
  if i % nk = 0 then wordXor (subWord (rotWord prev)) #v[rcon (i / nk), 0, 0, 0]
  else if nk = 8 ∧ i % nk = 4 then subWord prev
  else prev

/-- `n` more words of the schedule, the next one being word i; `acc` holds the words so far, the newest first, so
that word i-1 is its head and word i-nk its entry nk-1 (R149). -/
def expandWords (nk : Nat) : Nat → Nat → List AesWord → List AesWord
  | 0, _, acc => acc
  | n + 1, i, acc =>
    let t := scheduleMix nk i (acc.headD zeroWord)
    expandWords nk n (i + 1) (wordXor (acc.getD (nk - 1) zeroWord) t :: acc)

/-- The key words 0 to nk-1: word i is KEY[4i .. 4i+4) (R142, R149). -/
def keyWords (nk : Nat) (key : List Byte) : List AesWord :=
  (List.range nk).map fun i => Vector.ofFn fun j => key.getD (4 * i + j.val) 0

/-- The round-key schedule: 4*(nr+1) words, word 0 first (R141, R149). -/
def keySchedule (nk nr : Nat) (key : List Byte) : List AesWord :=
  (expandWords nk (4 * (nr + 1) - nk) nk (keyWords nk key).reverse).reverse

/-- One of the rounds 1 to nr-1 (R151). -/
def aesRound (w : List AesWord) (s : Block) (rd : Nat) : Block :=
  addRoundKey w rd (mixColumns (shiftRows (subBytes s)))

/-- The cipher over a schedule: the first key addition, the rounds 1 to nr-1, and the last round, which has no
MixColumns (R151). -/
def aesCipher (nr : Nat) (w : List AesWord) (b : Block) : Block :=
  let s := (List.range' 1 (nr - 1)).foldl (aesRound w) (addRoundKey w 0 b)
  addRoundKey w nr (shiftRows (subBytes s))

/-- AES128_Encrypt: Nk = 4, Nr = 10 (R141, R151). -/
@[irreducible] def aes128Encrypt (key : List Byte) (b : Block) : Block := aesCipher 10 (keySchedule 4 10 key) b

/-- AES256_Encrypt: Nk = 8, Nr = 14 (R141, R151). -/
@[irreducible] def aes256Encrypt (key : List Byte) (b : Block) : Block := aesCipher 14 (keySchedule 8 14 key) b

end Sys2Proof.Machine
end

