-- ==== Sys2Proof/Machine/BlockOps.lean ====
section
/-! DEFINITION. The block operators of 40_block_ops.md: XOR (R63), the reading of a Block as a number (00_scope.md
R6), mul_x (R64), and the byte-range writes into a Block that UPDATE and DIGEST use (00_scope.md R7, 43_digest.md
R122). -/

namespace Sys2Proof.Machine

/-- Byte-wise XOR of two Blocks (R63). -/
def blockXor (a b : Block) : Block := Vector.zipWith (· ^^^ ·) a b

/-- int(B): the 128-bit big-endian number of a Block; byte 0 is the most significant (R6). -/
def blockInt (b : Block) : BitVec 128 :=
  (List.finRange 16).foldl (fun v i => v <<< 8 ||| b[i].setWidth 128) 0

/-- blk(n): the Block whose big-endian number is n (R6). -/
def intBlock (n : BitVec 128) : Block := Vector.ofFn fun i => n.extractLsb' (8 * (15 - i.val)) 8

/-- mul_x: multiplication by x in GF(2^128) (R64). -/
def mulX (src : Block) : Block :=
  let v := blockInt src
  let r := v <<< 1
  intBlock (if v.msb then r ^^^ Config.rb else r)

/-- `B[off .. off + len(d)) <- d`: the bytes of d from position off on, every other byte as it was (R7). -/
def blockWrite (b : Block) (off : Nat) (d : List Byte) : Block :=
  Vector.ofFn fun i => if off ≤ i.val then (d[i.val - off]?).getD b[i] else b[i]

/-- The last block padded: with n < 16 valid bytes, `B[n] <- 0x80` and `B[n+1 .. 16) <- 0` (R122); a full block
stays as it is (R120 step 2). -/
def blockPad (b : Block) (n : Nat) : Block :=
  if n < Config.blockBytes then blockWrite b n (0x80 :: List.replicate (15 - n) 0) else b

end Sys2Proof.Machine
end

