-- ==== Sys2Proof/Machine/State.lean ====
section
/-! DEFINITION. The state of the engine as plain data: the eight registers of 10_state.md R10, each with its own
field, and the model's three own fields (the host's events still to come, the responses given, the count of cipher
invocations); the responses and status codes; the reasons a step could stop; the state right after reset (R25). -/

namespace Sys2Proof.Machine

/-- The value of the 1-bit cipher selector CSEL (R12). -/
inductive CipherSel where
  /-- CSEL = 0: AES-128 on KEY[0..16). -/
  | aes128
  /-- CSEL = 1: AES-256 on KEY[0..32). -/
  | aes256
  deriving DecidableEq, Repr

/-- The status of a response (R171). The codes 0x07 to 0xFF are reserved and never returned, so they have no
constructor; the 8-bit code of each is Status.code in Machine/Ops.lean. -/
inductive Status where
  /-- 0x00: accepted and completed. -/
  | ok
  /-- 0x01: the opcode is reserved (R172). -/
  | errOpcode
  /-- 0x02: a must-be-zero field is not zero (R173). -/
  | errField
  /-- 0x03: the payload's length differs from LEN (R174). -/
  | errPayload
  /-- 0x04: the key length does not fit the selected cipher (R175). -/
  | errKeyLen
  /-- 0x05: the tag length is outside [1, 16] (R176). -/
  | errTagLen
  /-- 0x06: UPDATE or DIGEST with KEYED = 0 (R177). -/
  | errNoKey
  deriving DecidableEq, Repr

/-- The response to one command: STATUS and the output bytes OUT, byte 0 first (R30, R37, R56). -/
structure Response where
  status : Status
  out : List Byte
  deriving DecidableEq, Repr

/-- What the host does next at the engine's inputs (R30): it issues a command word with a payload, or it asserts
the reset input between commands (R179). -/
inductive HostEvent where
  | command (w : BitVec 32) (p : List Byte)
  | reset
  deriving DecidableEq, Repr

/-- The whole machine. The first eight fields are the engine's registers (R10); the last three are the model's own
(log entries 1, 2 and 3), and no register is ever computed from `responses` or `encCalls`. -/
structure State where
  /-- KEYED, 1 bit: a key has been loaded since reset (R11). -/
  keyed : Bool
  /-- CSEL, 1 bit: the selected cipher (R12). -/
  csel : CipherSel
  /-- KEY, 32 bytes: the key material (R13). -/
  key : KeyMaterial
  /-- K1: the subkey of a full last block (R15). -/
  k1 : Block
  /-- K2: the subkey of a padded last block (R15). -/
  k2 : Block
  /-- X: the CBC-MAC chain value (R16). -/
  x : Block
  /-- BUF: the partial-block buffer; bytes 0 to IDX-1 are valid (R17). -/
  buf : Block
  /-- IDX, 5 bits, values 0 to 16 only: the count of valid bytes in BUF (R18). -/
  idx : BitVec 5
  /-- The model's own: the host's events still to come, first one first (R32; log entry 1). -/
  pending : List HostEvent
  /-- The model's own: the responses given so far, oldest first (log entry 2). -/
  responses : List Response
  /-- The model's own: how many cipher invocations have been made (R197; log entry 3). -/
  encCalls : Nat
  deriving DecidableEq, Repr

/-- The reasons a step could stop the machine. There is NONE: every command ends with a response and the engine is
ready for the next one (R170, R180), so this closed type has no constructor and no one raises a fault. Safe: nothing
is cut off by it (log entry 12). -/
inductive Fault where
  deriving DecidableEq, Repr

/-- The reasons the model could have no meaning for a command. -/
inductive Refusal where
  /-- Would be raised by an arm of exec whose command has no meaning yet; every command has one, so no arm raises
  it. Safe: a refused step proves nothing about the hardware. -/
  | notModelled (mnemonic : String)
  deriving DecidableEq, Repr

/-- The state right after reset (R25, R190): phase Fresh. K1, K2, X, BUF and IDX hold zero by R25. DESIGN CHOICE
(log entry 5, unsafe): R25 gives CSEL and KEY no value; here they hold AES-128 and zeros, which no command reads
while KEYED = 0. -/
def State.reset : State where
  keyed := false
  csel := .aes128
  key := KeyMaterial.zero
  k1 := Block.zero
  k2 := Block.zero
  x := Block.zero
  buf := Block.zero
  idx := 0
  pending := []
  responses := []
  encCalls := 0

end Sys2Proof.Machine
end

