-- ==== Sys2Proof/Machine/Ops.lean ====
section
/-! DEFINITION. The shared operations over the registers: ENC and its invocation (40_block_ops.md R61), absorb (R66),
SUBKEYS (41_setkey.md R80), the two ways a command ends, respond and reject (00_scope.md R7, 60_exceptions.md R170),
and reset (70_reset_and_hazards.md R190). Rejection is the engine's only exception; it saves nothing and there is no
return from it (R180), so no return operation stands beside it. -/

namespace Sys2Proof.Machine

/-- The 8-bit STATUS code on the response port (R171). -/
def Status.code : Status → BitVec 8
  | .ok => 0x00
  | .errOpcode => 0x01
  | .errField => 0x02
  | .errPayload => 0x03
  | .errKeyLen => 0x04
  | .errTagLen => 0x05
  | .errNoKey => 0x06

/-- ENC under the cipher context (CSEL, KEY): AES-128 on KEY[0..16) or AES-256 on KEY[0..32) (R61, R140). -/
def encUnder (c : CipherSel) (key : KeyMaterial) (b : Block) : Block :=
  match c with
  | .aes128 => aes128Encrypt (key.toList.take Config.keyBytes128) b
  | .aes256 => aes256Encrypt key.toList b

/-- ENC(b) under the state's own context (R14, R61). -/
def State.enc (s : State) (b : Block) : Block := encUnder s.csel s.key b

/-- One cipher invocation: ENC(b), counted in the model's own count; no register is written (R61, R197). -/
def State.invokeCipher (s : State) (b : Block) : Block × State :=
  (s.enc b, { s with encCalls := s.encCalls + 1 })

/-- absorb(b): X <- ENC(X XOR b), one cipher invocation (R66). -/
def State.absorb (s : State) (b : Block) : State :=
  let r := s.invokeCipher (blockXor s.x b)
  { r.2 with x := r.1 }

/-- SUBKEYS under the context the state holds: L = ENC(0^128), K1 = mul_x(L), K2 = mul_x(K1); L is dropped (R80). -/
def State.subkeys (s : State) : State :=
  let r := s.invokeCipher Block.zero
  let k1 := mulX r.1
  { r.2 with k1 := k1, k2 := mulX k1 }

/-- respond(out): the command is accepted and ends with STATUS = OK and OUT = out (R7, R31). -/
def State.respond (s : State) (out : List Byte) : State :=
  { s with responses := s.responses ++ [⟨.ok, out⟩] }

/-- reject code: no register is written, no cipher invocation is made, the response holds the code and no output
(R170). -/
def State.reject (s : State) (code : Status) : State :=
  { s with responses := s.responses ++ [⟨code, []⟩] }

/-- RST: every register takes its reset value; no response is given (R190). CSEL and KEY, to which R190 gives no
value, take those of State.reset (log entry 5). -/
def State.takeReset (s : State) : State :=
  { State.reset with pending := s.pending, responses := s.responses, encCalls := s.encCalls }

end Sys2Proof.Machine
end

