-- ==== Sys2Proof/Machine/Flags.lean ====
section
/-! DEFINITION. The engine's only flag, KEYED (10_state.md R11): the check that UPDATE and DIGEST make of it
(60_exceptions.md R177) and the write of an accepted SETKEY. There are no condition codes and no sticky error flag
(R171). -/

namespace Sys2Proof.Machine

/-- ERR_NOKEY while KEYED = 0 (R177). -/
def State.checkKeyed (s : State) : Option Status := if s.keyed then none else some .errNoKey

/-- KEYED <- 1 (R81, R82). -/
def State.setKeyed (s : State) : State := { s with keyed := true }

end Sys2Proof.Machine
end

