-- ==== Sys2Proof/Machine/Operands.lean ====
section
/-! DEFINITION. The operand forms of the commands: the checks on TLEN, LEN and the payload (60_exceptions.md R173 to
R176), the rule that the first failing check gives the code (R178), and the key a SETKEY payload stands for
(10_state.md R13). -/

namespace Sys2Proof.Machine

/-- ERR_FIELD where a must-be-zero field is not zero (R173). -/
def checkField {w : Nat} (v : BitVec w) : Option Status := if v = 0 then none else some .errField

/-- ERR_PAYLOAD where the number of payload bytes differs from LEN (R174). -/
def checkPayload (len : BitVec 16) (p : List Byte) : Option Status :=
  if p.length = len.toNat then none else some .errPayload

/-- ERR_KEYLEN where LEN is not the key length of the opcode's cipher (R175). -/
def checkKeyLen (bytes : Nat) (len : BitVec 16) : Option Status :=
  if len.toNat = bytes then none else some .errKeyLen

/-- ERR_TAGLEN where TLEN is outside [1, 16] (R176). -/
def checkTagLen (tlen : BitVec 8) : Option Status :=
  if Config.minTagBytes ≤ tlen.toNat ∧ tlen.toNat ≤ Config.maxTagBytes then none else some .errTagLen

/-- The code of the first failing check, in the order given; none where every check passes (R178). -/
def firstFailing : List (Option Status) → Option Status
  | [] => none
  | some code :: _ => some code
  | none :: rest => firstFailing rest

/-- A command's end after its checks: rejected with the first failing code, or its effect (R170, R178). -/
def State.admitted (s : State) (checks : List (Option Status)) (effect : State) : State :=
  match firstFailing checks with
  | some code => s.reject code
  | none => effect

/-- The checks of SETKEY128 and SETKEY256, for a key of the given length (R81, R82, R178). -/
def setkeyChecks (bytes : Nat) (tlen : BitVec 8) (len : BitVec 16) (p : List Byte) : List (Option Status) :=
  [checkField tlen, checkPayload len p, checkKeyLen bytes len]

/-- The checks of UPDATE (R100, R178). -/
def updateChecks (s : State) (tlen : BitVec 8) (len : BitVec 16) (p : List Byte) : List (Option Status) :=
  [checkField tlen, checkPayload len p, s.checkKeyed]

/-- The checks of DIGEST (R120, R178). -/
def digestChecks (s : State) (tlen : BitVec 8) (len : BitVec 16) (p : List Byte) : List (Option Status) :=
  [checkField len, checkPayload len p, checkTagLen tlen, s.checkKeyed]

/-- KEY[0..16) <- P[0..16) and KEY[16..32) <- 0 (R13). -/
def key128 (p : List Byte) : KeyMaterial := Vector.ofFn fun i => if i.val < Config.keyBytes128 then p.getD i.val 0 else 0

/-- KEY[0..32) <- P[0..32) (R13). -/
def key256 (p : List Byte) : KeyMaterial := Vector.ofFn fun i => p.getD i.val 0

end Sys2Proof.Machine
end

