-- ==== Sys2Proof/Machine/Digest.lean ====
section
/-! DEFINITION. DIGEST (43_digest.md R120): the source's seven steps. -/

namespace Sys2Proof.Machine

/-- Step 1: pad_type, K2 where IDX < 16 and K1 otherwise (R121). -/
def State.padType (s : State) : Block := if s.idx.toNat < Config.blockBytes then s.k2 else s.k1

/-- Steps 2 and 3: the last block padded and masked (R120, R122). -/
def State.lastBlock (s : State) : Block := blockXor (blockPad s.buf s.idx.toNat) s.padType

/-- Steps 1 to 5 and 7: T_full, and the state with the chain reset; BUF keeps the padded, masked block (R120). -/
def State.finishMac (s : State) : Block × State :=
  let s3 := { s with buf := s.lastBlock }
  let r := s3.invokeCipher (blockXor s3.x s3.buf)
  (r.1, { r.2 with x := Block.zero, idx := 0 })

/-- The effect of an accepted DIGEST: the first TLEN bytes of T_full are the output (R37, R120 step 6). -/
def State.digestTag (s : State) (tlen : BitVec 8) : State :=
  let r := s.finishMac
  r.2.respond (r.1.toList.take tlen.toNat)

/-- DIGEST (R120). -/
def execDigest (tlen : BitVec 8) (len : BitVec 16) (p : List Byte) (s : State) :
    Host.Outcome State Fault Refusal :=
  .next (s.admitted (digestChecks s tlen len p) (s.digestTag tlen))

end Sys2Proof.Machine
end

