-- ==== Sys2Proof/Machine/SetKey.lean ====
section
/-! DEFINITION. The SETKEY commands (41_setkey.md R81, R82): both load a context, derive the subkeys under it and
start an empty message; they differ in the cipher and in the key bytes. -/

namespace Sys2Proof.Machine

/-- The effect of an accepted SETKEY with the context (c, key): CSEL, KEY, SUBKEYS, X, IDX, KEYED; BUF is not
written (R81, R82). -/
def State.loadKey (s : State) (c : CipherSel) (key : KeyMaterial) : State :=
  ({ State.subkeys { s with csel := c, key := key } with x := Block.zero, idx := 0 }.setKeyed).respond []

/-- SETKEY128 (R81). -/
def execSetkey128 (tlen : BitVec 8) (len : BitVec 16) (p : List Byte) (s : State) :
    Host.Outcome State Fault Refusal :=
  .next (s.admitted (setkeyChecks Config.keyBytes128 tlen len p) (s.loadKey .aes128 (key128 p)))

/-- SETKEY256 (R82). -/
def execSetkey256 (tlen : BitVec 8) (len : BitVec 16) (p : List Byte) (s : State) :
    Host.Outcome State Fault Refusal :=
  .next (s.admitted (setkeyChecks Config.keyBytes256 tlen len p) (s.loadKey .aes256 (key256 p)))

end Sys2Proof.Machine
end

