-- ==== Sys2Proof/Machine/Update.lean ====
section
/-! DEFINITION. UPDATE (42_update.md R100): the source's five steps, one definition each. IDX is read as a number;
for the values 17 to 31, which the engine never holds, 16 - IDX is 0 (log entry 6). -/

namespace Sys2Proof.Machine

/-- k of step 1: how many payload bytes fit into BUF (R100). -/
def State.fillCount (s : State) (p : List Byte) : Nat := min (Config.blockBytes - s.idx.toNat) p.length

/-- Step 1: BUF[IDX .. IDX+k) <- P[0..k) and IDX <- IDX + k (R100). -/
def State.fillBuf (s : State) (p : List Byte) : State :=
  { s with
    buf := blockWrite s.buf s.idx.toNat (p.take (s.fillCount p))
    idx := BitVec.ofNat 5 (s.idx.toNat + s.fillCount p) }

/-- Step 3: the full buffer is absorbed, because more data follows it (R100). -/
def State.absorbBuf (s : State) : State := { s.absorb s.buf with idx := 0 }

/-- Step 4: absorb blocks of the data while more than 16 bytes are left; `n` bounds the number of blocks, and the
length of the data is bound enough. Answers the state and the 1 to 16 bytes left (R100). -/
def State.absorbData : Nat → State → List Byte → State × List Byte
  | 0, s, d => (s, d)
  | n + 1, s, d =>
    if d.length > Config.blockBytes then
      State.absorbData n (s.absorb (Block.ofBytes (d.take Config.blockBytes))) (d.drop Config.blockBytes)
    else (s, d)

/-- Step 5: the last 1 to 16 bytes become the tentative last block (R100). -/
def State.holdTail (s : State) (d : List Byte) : State :=
  { s with buf := blockWrite s.buf 0 d, idx := BitVec.ofNat 5 d.length }

/-- The effect of an accepted UPDATE on the registers: steps 1 to 5 (R100). -/
def State.appendMessage (s : State) (p : List Byte) : State :=
  let s1 := s.fillBuf p
  let d := p.drop (s.fillCount p)
  if d.isEmpty then s1
  else
    let r := State.absorbData d.length s1.absorbBuf d
    r.1.holdTail r.2

/-- UPDATE (R100). -/
def execUpdate (tlen : BitVec 8) (len : BitVec 16) (p : List Byte) (s : State) :
    Host.Outcome State Fault Refusal :=
  .next (s.admitted (updateChecks s tlen len p) ((s.appendMessage p).respond []))

end Sys2Proof.Machine
end

