-- ==== Sys2Proof/Machine/Dispatch.lean ====
section
/-! DEFINITION. The dispatch of a decoded command to its meaning: one arm per constructor of Instr. -/

namespace Sys2Proof.Machine

/-- The effect of a command on the state (30_encoding.md R52). -/
def exec (i : Instr) (s : State) : Host.Outcome State Fault Refusal :=
  match i with
  | .setkey128 tlen len p => Sys2Proof.Machine.execSetkey128 tlen len p s
  | .setkey256 tlen len p => Sys2Proof.Machine.execSetkey256 tlen len p s
  | .update tlen len p => Sys2Proof.Machine.execUpdate tlen len p s
  | .digest tlen len p => Sys2Proof.Machine.execDigest tlen len p s

end Sys2Proof.Machine
end

