-- ==== Sys2Proof/Machine/Request.lean ====
section
/-! DEFINITION. One request on the command port (20_memory.md R31): decode it, then run its command or reject a
reserved opcode; and what the engine does with one host event, or with none. -/

namespace Sys2Proof.Machine

/-- The engine takes (W, P): a command of the opcode map runs; any other opcode is rejected with ERR_OPCODE
(R31, R172). -/
def State.takeCommand (s : State) (w : BitVec 32) (p : List Byte) : Host.Outcome State Fault Refusal :=
  match decode w p with
  | .ok i => exec i s
  | .error (.reservedOpcode _) => .next (s.reject .errOpcode)

/-- The host event is taken off the port, then the engine acts on it (R32, R179). -/
def State.takeEvent (s : State) (e : HostEvent) : Host.Outcome State Fault Refusal :=
  match e with
  | .command w p => s.takeCommand w p
  | .reset => .next s.takeReset

/-- One step: the next event of the host, or, where the host offers none, waiting with every register kept (R191,
R183; log entry 4). -/
def State.takeNext (s : State) : Host.Outcome State Fault Refusal :=
  match s.pending with
  | [] => .next s
  | e :: rest => { s with pending := rest }.takeEvent e

/-- The state with one more request in front of the host's events (log entry 7). -/
def State.offer (s : State) (w : BitVec 32) (p : List Byte) : State :=
  { s with pending := .command w p :: s.pending }

end Sys2Proof.Machine
end

