-- ==== Sys2Proof/Machine/Step.lean ====
section
/-! DEFINITION. The step of the machine and the placing of an instruction where the next step fetches it. What they
do is written in Machine/Request.lean and Decode.lean. -/

namespace Sys2Proof.Machine

/-- One step of the machine: the host's next event, taken as one atomic step (20_memory.md R31). -/
def step (s : State) : Host.Outcome State Fault Refusal := s.takeNext

/-- The state with the instruction of an opcode-table word offered as the host's next command, its payload bytes
above `nbits` zero: the very next step runs it (log entry 7). -/
def State.withFetchWord (s : State) (nbits w : Nat) : State :=
  s.offer (tableWord nbits w) (tablePayload nbits w)

end Sys2Proof.Machine
end

