-- ==== Sys2Proof/Machine/Assembler.lean ====
section
/-! DEFINITION. The command syntax and the pseudo-commands of 30_encoding.md R57 and R58: what each written line makes
the host do. It is notation for host events, with no meaning of its own (92_eei_decisions.md D30). Lexical points that R57
leaves open are fixed in log entry 15. -/

namespace Sys2Proof.Machine

/-- One written line, its operands read (R57, R58). -/
inductive AsmLine where
  | setkey128 (key : List Byte)
  | setkey256 (key : List Byte)
  | update (d : List Byte)
  | digest (t : Nat)
  | cmd (w : BitVec 32) (p : List Byte)
  | reset
  | updateStar (m : List Byte)
  | cmac128 (key m : List Byte) (t : Nat)
  | cmac256 (key m : List Byte) (t : Nat)
  deriving DecidableEq, Repr

/-- `SETKEY128 <key>`: W = 0x01000010, P = the key bytes (R57). -/
def setkey128Event (key : List Byte) : HostEvent := .command 0x01000010 key

/-- `SETKEY256 <key>`: W = 0x02000020, P = the key bytes (R57). -/
def setkey256Event (key : List Byte) : HostEvent := .command 0x02000020 key

/-- `UPDATE <d>`: W = 0x03000000 OR n, n the number of bytes written (R57). -/
def updateEvent (d : List Byte) : HostEvent := .command (0x03000000 ||| BitVec.ofNat 32 d.length) d

/-- `DIGEST <t>`: W = 0x04000000 OR (t << 16), P = [] (R57). -/
def digestEvent (t : Nat) : HostEvent := .command (0x04000000 ||| BitVec.ofNat 32 t <<< 16) []

/-- The canonical split of a message: chunks of exactly 65535 bytes, then the remainder if it is not empty; `n`
bounds the number of chunks, and the message's length is bound enough (R58). -/
def messageChunks : Nat → List Byte → List (List Byte)
  | 0, _ => []
  | n + 1, m =>
    if m.isEmpty then []
    else m.take Config.maxUpdateBytes :: messageChunks n (m.drop Config.maxUpdateBytes)

/-- `UPDATE* <m>`: one UPDATE a chunk; an empty message is one empty UPDATE (R58). DESIGN CHOICE (log entry 15): R58
lets an assembler split at any points; this one takes the canonical split. -/
def updateStarEvents (m : List Byte) : List HostEvent :=
  if m.isEmpty then [updateEvent []] else (messageChunks m.length m).map updateEvent

/-- The host events of a line (R57, R58). -/
def AsmLine.events : AsmLine → List HostEvent
  | .setkey128 key => [setkey128Event key]
  | .setkey256 key => [setkey256Event key]
  | .update d => [updateEvent d]
  | .digest t => [digestEvent t]
  | .cmd w p => [.command w p]
  | .reset => [.reset]
  | .updateStar m => updateStarEvents m
  | .cmac128 key m t => setkey128Event key :: updateStarEvents m ++ [digestEvent t]
  | .cmac256 key m t => setkey256Event key :: updateStarEvents m ++ [digestEvent t]

/-- The value of a hex digit. DESIGN CHOICE (log entry 15): either case is read. -/
def hexDigit (c : Char) : Option Nat :=
  if '0'.toNat ≤ c.toNat ∧ c.toNat ≤ '9'.toNat then some (c.toNat - '0'.toNat)
  else if 'a'.toNat ≤ c.toNat ∧ c.toNat ≤ 'f'.toNat then some (c.toNat - 'a'.toNat + 10)
  else if 'A'.toNat ≤ c.toNat ∧ c.toNat ≤ 'F'.toNat then some (c.toNat - 'A'.toNat + 10)
  else none

/-- Pairs of hex digits as bytes, the first byte leftmost; an odd count is refused. -/
def pairBytes : List Nat → Option (List Byte)
  | [] => some []
  | [_] => none
  | h :: l :: rest => (pairBytes rest).map (BitVec.ofNat 8 (16 * h + l) :: ·)

/-- A hex string as bytes; spaces inside it are ignored (R57). -/
def hexBytes (cs : List Char) : Option (List Byte) := do
  let digits ← (cs.filter (· ≠ ' ')).mapM hexDigit
  pairBytes digits

/-- A decimal integer. DESIGN CHOICE (log entry 15): all spaces are ignored, leading zeros are read, and no digits is
refused. -/
def decimal (cs : List Char) : Option Nat :=
  let ds := cs.filter (· ≠ ' ')
  if ds.isEmpty then none
  else ds.foldl (fun acc c => acc.bind fun n =>
    if '0'.toNat ≤ c.toNat ∧ c.toNat ≤ '9'.toNat then some (10 * n + (c.toNat - '0'.toNat)) else none) (some 0)

/-- A hex string of exactly `n` bytes. -/
def hexExactly (n : Nat) (cs : List Char) : Option (List Byte) := do
  let d ← hexBytes cs
  if d.length = n then some d else none

/-- A tag length, a decimal integer (R57). DESIGN CHOICE (log entry 15): one that the 8-bit field TLEN cannot hold is
refused. -/
def tagOperand (cs : List Char) : Option Nat := do
  let t ← decimal cs
  if t < 256 then some t else none

/-- The operands `<key>, <message>, <t>` of a CMAC line (R58). DESIGN CHOICE (log entry 15): the message may have no
digits, and is then the empty one. -/
def cmacOperands (keyBytes : Nat) (cs : List Char) : Option (List Byte × List Byte × Nat) := do
  let key ← hexExactly keyBytes (cs.takeWhile (· ≠ ','))
  let rest := (cs.dropWhile (· ≠ ',')).drop 1
  let m ← hexBytes (rest.takeWhile (· ≠ ','))
  let t ← tagOperand ((rest.dropWhile (· ≠ ',')).drop 1)
  some (key, m, t)

/-- The operands of a CMD line: `0x`, eight hex digits, then the payload's hex digits, if any (R57). DESIGN CHOICE (log
entry 15): the word is the eight characters after a lower-case `0x`, with no space among them, and no space need part
them from the payload: `CMD 0x05000000ab` is the word with payload [0xab], as `CMD 0x05000000 ab` is. -/
def cmdOperands (cs : List Char) : Option (BitVec 32 × List Byte) :=
  match cs.dropWhile (· = ' ') with
  | '0' :: 'x' :: rest => do
    let w ← hexExactly 4 (rest.take 8)
    let p ← hexBytes (rest.drop 8)
    some (w.foldl (fun acc b => acc <<< 8 ||| b.setWidth 32) 0, p)
  | _ => none

/-- The line with the given mnemonic and operand text (R57, R58). DESIGN CHOICE (log entry 15): mnemonics are read in
capitals only. -/
def asmLine (mnemonic : String) (ops : List Char) : Option AsmLine :=
  if mnemonic = "SETKEY128" then (hexExactly Config.keyBytes128 ops).map .setkey128
  else if mnemonic = "SETKEY256" then (hexExactly Config.keyBytes256 ops).map .setkey256
  else if mnemonic = "UPDATE" then do
    let d ← hexBytes ops
    if d.length ≤ Config.maxUpdateBytes then some (.update d) else none
  else if mnemonic = "DIGEST" then (tagOperand ops).map .digest
  else if mnemonic = "CMD" then (cmdOperands ops).map fun r => .cmd r.1 r.2
  else if mnemonic = "RESET" then (if ops.all (· = ' ') then some .reset else none)
  else if mnemonic = "UPDATE*" then (hexBytes ops).map .updateStar
  else if mnemonic = "CMAC128" then (cmacOperands Config.keyBytes128 ops).map fun r => .cmac128 r.1 r.2.1 r.2.2
  else if mnemonic = "CMAC256" then (cmacOperands Config.keyBytes256 ops).map fun r => .cmac256 r.1 r.2.1 r.2.2
  else none

/-- The host events that one line of a program text makes; `;` starts a comment (R57). DESIGN CHOICE (log entry 15):
spaces before the mnemonic are skipped, at least one space parts it from its operands, an empty line makes no event, and
a line that R57 and R58 do not give is refused. -/
def assembleLine (line : String) : Option (List HostEvent) :=
  let code := (line.toList.takeWhile (· ≠ ';')).dropWhile (· = ' ')
  if code.isEmpty then some []
  else (asmLine (String.ofList (code.takeWhile (· ≠ ' '))) (code.dropWhile (· ≠ ' '))).map AsmLine.events

end Sys2Proof.Machine
end

