-- ==== Sys2Proof/Safety.lean ====
section
/-! DEFINITION. The terms claims are made in: the admission check of 60_exceptions.md R178 written straight from the
request, the invariant of the registers, what it is for the engine to hold a message (10_state.md R21), the closed form
of the tag (43_digest.md R125), which states look alike to the host (R24, R25), the byte-wise forms of mul_x and the
S-box (40_block_ops.md R65, 44_aes.md R144), and when a run was accepted throughout. Nothing here is used by the step. -/

namespace Sys2Proof.Machine

/-- The check of R178 on a request (W, P), line for line; `keyed` is the KEYED flag. none is accept. -/
def admission (w : BitVec 32) (p : List Byte) (keyed : Bool) : Option Status :=
  let opc := (opcField w).toNat
  let tlen := (tlenField w).toNat
  let len := (lenField w).toNat
  if ¬(opc = 0x01 ∨ opc = 0x02 ∨ opc = 0x03 ∨ opc = 0x04) then some .errOpcode
  else if (opc = 0x01 ∨ opc = 0x02 ∨ opc = 0x03) ∧ tlen ≠ 0 then some .errField
  else if opc = 0x04 ∧ len ≠ 0 then some .errField
  else if p.length ≠ len then some .errPayload
  else if opc = 0x01 ∧ len ≠ 16 then some .errKeyLen
  else if opc = 0x02 ∧ len ≠ 32 then some .errKeyLen
  else if opc = 0x04 ∧ (tlen < 1 ∨ 16 < tlen) then some .errTagLen
  else if (opc = 0x03 ∨ opc = 0x04) ∧ keyed = false then some .errNoKey
  else none

/-- Every response so far had STATUS = OK: no command of the host was rejected (93_implementation_defined.md U5). -/
def State.AllAccepted (s : State) : Prop := ∀ r ∈ s.responses, r.status = .ok

/-- The first n valid bytes of BUF. -/
def State.validBytes (s : State) : List Byte := s.buf.toList.take s.idx.toNat

/-- The CBC chain from a start value over whole blocks: x becomes E(x XOR b) for each block b (R21, R66). -/
def cbcFrom (E : Block → Block) (x : Block) (bs : List Block) : Block :=
  bs.foldl (fun x b => E (blockXor x b)) x

/-- The whole 16-byte blocks of a byte sequence, in stream order (R35). -/
def wholeBlocks (m : List Byte) : List Block :=
  (List.range (m.length / 16)).map fun j => Block.ofBytes (m.drop (16 * j))

/-- CBC(m) of R21, for m a whole number of blocks. -/
def cbc (E : Block → Block) (m : List Byte) : Block := cbcFrom E Block.zero (wholeBlocks m)

/-- The length of the held last part of a stream of n bytes: 0 for the empty stream, else 1 to 16 (R21). -/
def heldCount (n : Nat) : Nat := if n = 0 then 0 else (n - 1) % 16 + 1

/-- The engine holds the message m (R21): its last 0 to 16 bytes are the valid bytes of BUF, and X is the chain over
the rest. -/
structure State.HoldsMessage (s : State) (m : List Byte) : Prop where
  idx_eq : s.idx.toNat = heldCount m.length
  valid_eq : s.validBytes = m.drop (m.length - heldCount m.length)
  chain_eq : s.x = cbc s.enc (m.take (m.length - heldCount m.length))

/-- The masked last block M_last of a message (R125): K1 over a full last block, K2 over a padded one. -/
def lastBlockOf (k1 k2 : Block) (m : List Byte) : Block :=
  let n := m.length
  if 0 < n ∧ n % 16 = 0 then blockXor (Block.ofBytes (m.drop (n - 16))) k1
  else blockXor (Block.ofBytes (m.drop (n / 16 * 16) ++ 0x80 :: List.replicate (15 - n % 16) 0)) k2

/-- The bytes of a message before its last block (R125). -/
def beforeLast (m : List Byte) : List Byte :=
  let n := m.length
  if 0 < n ∧ n % 16 = 0 then m.take (n - 16) else m.take (n / 16 * 16)

/-- T_full of a message: ENC(CBC(M_1 .. M_(q-1)) XOR M_last) (R125). -/
def cmacFull (E : Block → Block) (k1 k2 : Block) (m : List Byte) : Block :=
  E (blockXor (cbc E (beforeLast m)) (lastBlockOf k1 k2 m))

/-- The CMAC of a message under a context, with the subkeys of R80. -/
def cmac (c : CipherSel) (key : KeyMaterial) (m : List Byte) : Block :=
  let k1 := mulX (encUnder c key Block.zero)
  cmacFull (encUnder c key) k1 (mulX k1) m

/-- The number of cipher invocations of an accepted UPDATE with n payload bytes from IDX = i0 (R102). -/
def updateCalls (i0 n : Nat) : Nat := if i0 + n = 0 then 0 else (i0 + n - ((i0 + n - 1) % 16 + 1)) / 16

/-- The invariant of the engine: IDX is a count of buffer bytes (R18); an unkeyed engine is as reset left it in the
registers R25 gives a value (R11, R25); a keyed engine's subkeys are those of its context (R15), AES-128 keys leave
KEY[16..32) zero (R13), and an empty buffer means an empty chain (R21); and no response holds more than 16 output bytes,
or any beside a rejection (R30, R170). -/
structure State.Inv (s : State) : Prop where
  idx_le : s.idx.toNat ≤ 16
  fresh_k1 : s.keyed = false → s.k1 = Block.zero
  fresh_k2 : s.keyed = false → s.k2 = Block.zero
  fresh_x : s.keyed = false → s.x = Block.zero
  fresh_buf : s.keyed = false → s.buf = Block.zero
  fresh_idx : s.keyed = false → s.idx = 0
  keyed_k1 : s.keyed = true → s.k1 = mulX (s.enc Block.zero)
  keyed_k2 : s.keyed = true → s.k2 = mulX s.k1
  key_tail : s.keyed = true → s.csel = .aes128 → s.key.toList.drop 16 = List.replicate 16 0
  empty_x : s.idx = 0 → s.x = Block.zero
  out_le : ∀ r ∈ s.responses, r.out.length ≤ 16
  out_rejected : ∀ r ∈ s.responses, r.status ≠ .ok → r.out = []

/-- The two states hold the same in every register (R10). -/
structure State.SameRegisters (s t : State) : Prop where
  keyed_eq : s.keyed = t.keyed
  csel_eq : s.csel = t.csel
  key_eq : s.key = t.key
  k1_eq : s.k1 = t.k1
  k2_eq : s.k2 = t.k2
  x_eq : s.x = t.x
  buf_eq : s.buf = t.buf
  idx_eq : s.idx = t.idx

/-- The two states hold the same in every register but for the stale bytes BUF[IDX..16) (R24). -/
structure State.SameButStale (s t : State) : Prop where
  keyed_eq : s.keyed = t.keyed
  csel_eq : s.csel = t.csel
  key_eq : s.key = t.key
  k1_eq : s.k1 = t.k1
  k2_eq : s.k2 = t.k2
  x_eq : s.x = t.x
  idx_eq : s.idx = t.idx
  valid_eq : s.validBytes = t.validBytes

/-- The two states face the same host events and have given the same responses. -/
def State.SameHostView (s t : State) : Prop := s.pending = t.pending ∧ s.responses = t.responses

/-- The host cannot tell the two states apart, now or later (R24, R25; 93_implementation_defined.md U6 to U8): same host
view, same phase, and, once keyed, the same registers but for stale bytes. -/
def State.LookAlike (s t : State) : Prop :=
  s.SameHostView t ∧ s.keyed = t.keyed ∧ (s.keyed = true → s.SameButStale t)

/-- The engine as its host knows it: the context loaded since reset, if any, and the message since the last accepted
SETKEY or DIGEST (R21, R32). -/
structure MacView where
  context : Option (CipherSel × KeyMaterial)
  message : List Byte
  deriving DecidableEq, Repr

/-- What one host event does to the context and the message, and the response to it: a rejected command changes
nothing, a SETKEY loads a context and empties the message, an UPDATE appends its payload, a DIGEST answers the first TLEN
bytes of the CMAC of the message and empties it, and reset forgets both (R21, R22, R32, R125, R170, R190). -/
def MacView.take (v : MacView) (e : HostEvent) : MacView × List Response :=
  match e with
  | .reset => (⟨none, []⟩, [])
  | .command w p =>
    match admission w p v.context.isSome with
    | some code => (v, [⟨code, []⟩])
    | none =>
      if opcField w = 0x01 then (⟨some (.aes128, key128 p), []⟩, [⟨.ok, []⟩])
      else if opcField w = 0x02 then (⟨some (.aes256, key256 p), []⟩, [⟨.ok, []⟩])
      else if opcField w = 0x03 then ({ v with message := v.message ++ p }, [⟨.ok, []⟩])
      else
        let tag := match v.context with
          | some (c, key) => (cmac c key v.message).toList.take (tlenField w).toNat
          | none => []
        ({ v with message := [] }, [⟨.ok, tag⟩])

/-- The view after a list of host events and the responses to them, in order. -/
def MacView.takeAll (v : MacView) : List HostEvent → MacView × List Response
  | [] => (v, [])
  | e :: rest =>
    let r := v.take e
    let q := r.1.takeAll rest
    (q.1, r.2 ++ q.2)

/-- The registers hold the context, its subkeys (R15) and the message (R21) of the view. -/
structure State.Shows (s : State) (v : MacView) : Prop where
  keyed_eq : s.keyed = v.context.isSome
  csel_eq : ∀ c key, v.context = some (c, key) → s.csel = c
  key_eq : ∀ c key, v.context = some (c, key) → s.key = key
  k1_eq : s.keyed = true → s.k1 = mulX (s.enc Block.zero)
  k2_eq : s.keyed = true → s.k2 = mulX s.k1
  holds : s.keyed = true → s.HoldsMessage v.message

/-- mul_x byte by byte, as R65 writes it. -/
def mulXBytes (s : Block) : Block :=
  Vector.ofFn fun i =>
    if h : i.val < 15 then (s[i.val] <<< 1) ||| (s[i.val + 1] >>> 7)
    else (s[15] <<< 1) ^^^ (if s[0] >>> 7 = 1 then 0x87 else 0x00)

/-- The polynomial product of two bytes before reduction, up to degree 14 (R143). -/
def polyMul (a b : Byte) : BitVec 16 :=
  (List.range 8).foldl (fun acc j => if a.getLsbD j then acc ^^^ (b.setWidth 16 <<< j) else acc) 0

/-- Multiplication in GF(2^8): the product modulo x^8 + x^4 + x^3 + x + 1, reduced from bit 14 down to bit 8 (R143). -/
def gfMul (a b : Byte) : Byte :=
  ((List.range 7).foldl (fun r j => if r.getLsbD (14 - j) then r ^^^ (0x11B#16 <<< (6 - j)) else r)
    (polyMul a b)).setWidth 8

/-- The affine part of the S-box over the inverse b (R144). -/
def sboxAffine (b : Byte) : Byte :=
  b ^^^ b.rotateLeft 1 ^^^ b.rotateLeft 2 ^^^ b.rotateLeft 3 ^^^ b.rotateLeft 4 ^^^ 0x63

/-- The request of an UPDATE with payload d as the command word of R50. -/
def updateInstr (d : List Byte) : Instr := .update 0 (BitVec.ofNat 16 d.length) d

end Sys2Proof.Machine
end

