-- ==== Sys2Proof/Certificates/Slice0/Obligations.lean ====
section
/-! DEFINITION. The statements about the engine that the provers settle, from the numbered rules of spec/. Where a
statement ranges over every state, it holds of states no run reaches too, unless a premise says which. A docstring that
says "the spec's own inference" names a rule that the spec itself marks as derived from other rules, or as taken from
general knowledge. -/

open Sys2Proof Sys2Proof.Machine

/-! ### Encoding (30_encoding.md) -/

/-- R50 to R52: the request of a command decodes to that command, with TLEN, LEN and the payload at every value, the
values of commands that will be rejected among them. -/
def Obligations.DecodeOfEncode : Prop :=
  ∀ i : Instr, decode (encode i).1 (encode i).2 = .ok i

/-- R50 to R52: no two requests decode to one command: the command's own request is the only one. -/
def Obligations.EncodeOfDecode : Prop :=
  ∀ (w : BitVec 32) (p : List Byte) (i : Instr), decode w p = .ok i → encode i = (w, p)

/-- R53, column "in the word": the words of the four commands, at fields written out from the table. -/
def Obligations.SampleWordsDecode : Prop :=
  ∀ p : List Byte,
    decode 0x01000010 p = .ok (.setkey128 0 16 p) ∧ decode 0x02000020 p = .ok (.setkey256 0 32 p) ∧
    decode 0x0300ABCD p = .ok (.update 0 0xABCD p) ∧ decode 0x04100000 p = .ok (.digest 16 0 p) ∧
    decode 0x00000000 p = .error (.reservedOpcode 0) ∧ decode 0xff123456 p = .error (.reservedOpcode 0xff)

/-- R53, column match / mask: a well-formed command's word lies in its own row of the opcode table and in no other. -/
def Obligations.WellFormedWordInItsRow : Prop :=
  ∀ i : Instr, i.WellFormed → ∀ r ∈ opcodeTable, (r.Matches (encode i).1 ↔ r.mnemonic = i.mnemonic)

/-- R53: every word of a row of the opcode table decodes to the row's command. -/
def Obligations.RowWordDecodes : Prop :=
  ∀ r ∈ opcodeTable, ∀ (w : BitVec 32) (p : List Byte), r.Matches w →
    ∃ i, decode w p = .ok i ∧ i.mnemonic = r.mnemonic

/-- R57: the written lines for the four commands make the requests of the commands, at every operand a line takes. -/
def Obligations.AssemblerLinesEncode : Prop :=
  (∀ key : List Byte, key.length = 16 →
    setkey128Event key = .command (encode (.setkey128 0 16 key)).1 (encode (.setkey128 0 16 key)).2) ∧
  (∀ key : List Byte, key.length = 32 →
    setkey256Event key = .command (encode (.setkey256 0 32 key)).1 (encode (.setkey256 0 32 key)).2) ∧
  (∀ d : List Byte, d.length ≤ 65535 →
    updateEvent d = .command (encode (updateInstr d)).1 (encode (updateInstr d)).2) ∧
  (∀ t : Nat, t < 256 →
    digestEvent t = .command (encode (.digest (BitVec.ofNat 8 t) 0 [])).1 (encode (.digest (BitVec.ofNat 8 t) 0 [])).2)

/-- The model's choice (log entry 15): R58 lets an assembler split a message at any points, and the model takes the
split that R58 calls canonical. UPDATE* of a non-empty message is UPDATEs of these chunks: they join to the message,
none is empty, and each but the last has exactly 65535 bytes, the last at most that; an empty UPDATE* is one empty
UPDATE. -/
def Obligations.UpdateStarSplitsMessage : Prop :=
  updateStarEvents [] = [updateEvent []] ∧
  ∀ m : List Byte, m ≠ [] → ∃ chunks : List (List Byte),
    updateStarEvents m = chunks.map updateEvent ∧ chunks.flatten = m ∧
    (∀ c ∈ chunks, 0 < c.length ∧ c.length ≤ 65535) ∧ (∀ c ∈ chunks.dropLast, c.length = 65535)

/-! ### The step, reset and rejection (20_memory.md, 60_exceptions.md, 70_reset_and_hazards.md) -/

/-- R25, without CSEL and KEY, to which it gives no value: what reset leaves. -/
def Obligations.ResetRegisters : Prop :=
  State.reset.keyed = false ∧ State.reset.k1 = Block.zero ∧ State.reset.k2 = Block.zero ∧
  State.reset.x = Block.zero ∧ State.reset.buf = Block.zero ∧ State.reset.idx = 0

/-- R190, without CSEL and KEY, to which it gives no value: the reset input writes the reset values, gives no response
and makes no cipher invocation. -/
def Obligations.ResetInputWritesRegisters : Prop :=
  ∀ (s : State) (rest : List HostEvent), s.pending = .reset :: rest →
    ∃ t, step s = .next t ∧ t.keyed = false ∧ t.k1 = Block.zero ∧ t.k2 = Block.zero ∧ t.x = Block.zero ∧
      t.buf = Block.zero ∧ t.idx = 0 ∧ t.pending = rest ∧ t.responses = s.responses ∧ t.encCalls = s.encCalls

/-- R31: where the host's next request decodes to a command, the step is that command on the state with the request
taken off the port, and nothing else. -/
def Obligations.StepRunsDecodedCommand : Prop :=
  ∀ (s : State) (w : BitVec 32) (p : List Byte) (rest : List HostEvent) (i : Instr),
    s.pending = .command w p :: rest → decode w p = .ok i → step s = exec i { s with pending := rest }

/-- The instruction of an opcode-table word, placed by withFetchWord, is what the very next step runs. Model's own
convention: log entry 7. -/
def Obligations.PlacedWordRunsNext : Prop :=
  ∀ (s : State) (nbits w : Nat) (i : Instr), decodeTableWord nbits w = some i →
    step (s.withFetchWord nbits w) = exec i s

/-- R172: a reserved opcode is rejected with ERR_OPCODE, whatever TLEN, LEN and the payload are, and nothing but the
response changes. -/
def Obligations.ReservedOpcodeRejected : Prop :=
  ∀ (s : State) (w : BitVec 32) (p : List Byte) (rest : List HostEvent), s.pending = .command w p :: rest →
    (opcField w = 0x00 ∨ 0x05 ≤ (opcField w).toNat) →
    step s = .next { s with pending := rest, responses := s.responses ++ [⟨.errOpcode, []⟩] }

/-- Model's own convention (log entry 4): while the host offers nothing, the engine waits and keeps everything. -/
def Obligations.StepWaitsForHost : Prop :=
  ∀ s : State, s.pending = [] → step s = .next s

/-- R180, the spec's own inference from R170: after any host event the engine is ready for the next: no step faults or
refuses, in any state. -/
def Obligations.EveryStepGivesNextState : Prop :=
  ∀ s : State, ∃ t, step s = .next t

/-- R178 and R170: every request is answered at once. One that fails a check of R178 is rejected with the code of the
first failing check, an empty OUT, no register written and no cipher invocation; one that passes them all is answered
OK. -/
def Obligations.AdmissionCheckOrder : Prop :=
  ∀ (s : State) (w : BitVec 32) (p : List Byte) (rest : List HostEvent), s.pending = .command w p :: rest →
    ∃ t, step s = .next t ∧
      match admission w p s.keyed with
      | some code => t = { s with pending := rest, responses := s.responses ++ [⟨code, []⟩] }
      | none => ∃ out, t.responses = s.responses ++ [⟨.ok, out⟩]

/-- R171: the 8-bit code of each status; the codes differ, and 0x07 to 0xFF are never returned. -/
def Obligations.StatusCodeTable : Prop :=
  Status.code .ok = 0x00 ∧ Status.code .errOpcode = 0x01 ∧ Status.code .errField = 0x02 ∧
  Status.code .errPayload = 0x03 ∧ Status.code .errKeyLen = 0x04 ∧ Status.code .errTagLen = 0x05 ∧
  Status.code .errNoKey = 0x06 ∧ ∀ a : Status, (Status.code a).toNat ≤ 6

/-- R81 and R82, "Rejections": a SETKEY whose fields break R53 is rejected, in either phase, with ERR_FIELD,
ERR_PAYLOAD or ERR_KEYLEN in this order. -/
def Obligations.SetkeyRejections : Prop :=
  ∀ (s : State) (tlen : BitVec 8) (len : BitVec 16) (p : List Byte),
    let code : Status := if tlen ≠ 0 then .errField else if p.length ≠ len.toNat then .errPayload else .errKeyLen
    let rejected : State := { s with responses := s.responses ++ [⟨code, []⟩] }
    (¬(Instr.setkey128 tlen len p).WellFormed → exec (.setkey128 tlen len p) s = .next rejected) ∧
    (¬(Instr.setkey256 tlen len p).WellFormed → exec (.setkey256 tlen len p) s = .next rejected)

/-- R100, "Rejections": an UPDATE whose fields break R53, or any UPDATE while KEYED = 0, is rejected with ERR_FIELD,
ERR_PAYLOAD or ERR_NOKEY in this order. -/
def Obligations.UpdateRejections : Prop :=
  ∀ (s : State) (tlen : BitVec 8) (len : BitVec 16) (p : List Byte),
    (¬(Instr.update tlen len p).WellFormed ∨ s.keyed = false) →
    let code : Status := if tlen ≠ 0 then .errField else if p.length ≠ len.toNat then .errPayload else .errNoKey
    exec (.update tlen len p) s = .next { s with responses := s.responses ++ [⟨code, []⟩] }

/-- R120, "Rejections": a DIGEST whose fields break R53, or any DIGEST while KEYED = 0, is rejected with ERR_FIELD,
ERR_PAYLOAD, ERR_TAGLEN or ERR_NOKEY in this order; X and IDX are kept. -/
def Obligations.DigestRejections : Prop :=
  ∀ (s : State) (tlen : BitVec 8) (len : BitVec 16) (p : List Byte),
    (¬(Instr.digest tlen len p).WellFormed ∨ s.keyed = false) →
    let code : Status :=
      if len ≠ 0 then .errField else if p.length ≠ len.toNat then .errPayload
      else if tlen = 0 ∨ 16 < tlen.toNat then .errTagLen else .errNoKey
    exec (.digest tlen len p) s = .next { s with responses := s.responses ++ [⟨code, []⟩] }

/-- R196, the spec's own inference from R170: any number of rejected commands in a row, in either phase, leaves every
register as it was. -/
def Obligations.RejectedCommandsKeepRegisters : Prop :=
  ∀ (s : State) (evs rest : List HostEvent),
    (∀ e ∈ evs, ∃ w p code, e = .command w p ∧ admission w p s.keyed = some code) →
    ∃ t : State, Host.Core.run core evs.length { s with pending := evs ++ rest } = .next t ∧
      s.SameRegisters t ∧ t.pending = rest ∧ t.encCalls = s.encCalls

/-! ### The four commands: completion, result and frame -/

/-- R81: an accepted SETKEY128, in either phase: every register it writes, and every other field as it was. -/
def Obligations.Setkey128Result : Prop :=
  ∀ (s : State) (p : List Byte), p.length = 16 →
    let L := aes128Encrypt p Block.zero
    ∃ key : KeyMaterial, key.toList = p ++ List.replicate 16 0 ∧
      exec (.setkey128 0 16 p) s = .next { s with
        keyed := true, csel := .aes128, key := key, k1 := mulX L, k2 := mulX (mulX L), x := Block.zero, idx := 0,
        responses := s.responses ++ [⟨.ok, []⟩], encCalls := s.encCalls + 1 }

/-- R82: an accepted SETKEY256, in either phase: every register it writes, and every other field as it was. -/
def Obligations.Setkey256Result : Prop :=
  ∀ (s : State) (p : List Byte), p.length = 32 →
    let L := aes256Encrypt p Block.zero
    ∃ key : KeyMaterial, key.toList = p ∧
      exec (.setkey256 0 32 p) s = .next { s with
        keyed := true, csel := .aes256, key := key, k1 := mulX L, k2 := mulX (mulX L), x := Block.zero, idx := 0,
        responses := s.responses ++ [⟨.ok, []⟩], encCalls := s.encCalls + 1 }

/-- R100: an accepted UPDATE of any length from any IDX of 0 to 16. With `all` the valid bytes of BUF followed by the
payload, the last 0 to 16 bytes of `all` are held (R101, the spec's own inference from R100), the blocks before them
are absorbed in order, and the stale bytes are those step 1 left. The other registers are as they were. -/
def Obligations.UpdateResult : Prop :=
  ∀ (s : State) (p : List Byte), s.keyed = true → s.idx.toNat ≤ 16 → p.length ≤ 65535 →
    let all := s.validBytes ++ p
    let held := heldCount all.length
    ∃ t, exec (updateInstr p) s = .next t ∧
      t.idx.toNat = held ∧ t.validBytes = all.drop (all.length - held) ∧
      t.x = cbcFrom s.enc s.x (wholeBlocks (all.take (all.length - held))) ∧
      (∀ (j : Nat) (h : j < 16), held ≤ j → t.buf[j] = if all.length ≤ 16 then s.buf[j] else all.getD j 0) ∧
      t.keyed = s.keyed ∧ t.csel = s.csel ∧ t.key = s.key ∧ t.k1 = s.k1 ∧ t.k2 = s.k2 ∧
      t.pending = s.pending ∧ t.responses = s.responses ++ [⟨.ok, []⟩]

/-- R102, the spec's own inference from R100: the cipher invocations of an accepted UPDATE, IDX on its exit, and the
examples of R102's table. -/
def Obligations.UpdateCipherCalls : Prop :=
  (∀ (s : State) (p : List Byte), s.keyed = true → s.idx.toNat ≤ 16 → p.length ≤ 65535 →
    ∃ t, exec (updateInstr p) s = .next t ∧
      t.encCalls = s.encCalls + updateCalls s.idx.toNat p.length ∧
      (s.idx.toNat + p.length ≠ 0 →
        t.idx.toNat = (s.idx.toNat + p.length - 1) % 16 + 1 ∧
        16 * updateCalls s.idx.toNat p.length = s.idx.toNat + p.length - t.idx.toNat)) ∧
  updateCalls 0 16 = 0 ∧ updateCalls 16 1 = 1 ∧ updateCalls 0 64 = 3 ∧ updateCalls 5 32 = 2 ∧ updateCalls 7 0 = 0

/-- R104, the spec's own inference from R100: an empty UPDATE is accepted only when keyed, changes no register and
makes no cipher invocation, whatever message the engine holds; a DIGEST after it answers as one without it. -/
def Obligations.EmptyUpdateChangesNothing : Prop :=
  (∀ s : State, s.keyed = false →
    exec (updateInstr []) s = .next { s with responses := s.responses ++ [⟨.errNoKey, []⟩] }) ∧
  (∀ s : State, s.keyed = true →
    exec (updateInstr []) s = .next { s with responses := s.responses ++ [⟨.ok, []⟩] }) ∧
  (∀ (s t : State) (tlen : BitVec 8), s.keyed = true → 1 ≤ tlen.toNat → tlen.toNat ≤ 16 →
    exec (updateInstr []) s = .next t →
    ∃ (s' t' : State) (tag : List Byte), exec (.digest tlen 0 []) s = .next s' ∧ exec (.digest tlen 0 []) t = .next t' ∧
      s'.responses = s.responses ++ [⟨.ok, tag⟩] ∧ t'.responses = t.responses ++ [⟨.ok, tag⟩])

/-- R120 and R122: an accepted DIGEST, for every IDX in [0, 16] and every tag length in [1, 16]: BUF keeps the padded,
masked block, the output is the first TLEN bytes of ENC(X XOR BUF), X and IDX are reset, and every other field is as
it was. -/
def Obligations.DigestResult : Prop :=
  ∀ (s : State) (tlen : BitVec 8), s.keyed = true → s.idx.toNat ≤ 16 → 1 ≤ tlen.toNat → tlen.toNat ≤ 16 →
    ∃ last : Block,
      (∀ (j : Nat) (h : j < 16), last[j] =
        if s.idx.toNat < 16 then
          (if j < s.idx.toNat then s.buf[j] else if j = s.idx.toNat then 0x80 else 0x00) ^^^ s.k2[j]
        else s.buf[j] ^^^ s.k1[j]) ∧
      exec (.digest tlen 0 []) s = .next { s with
        buf := last, x := Block.zero, idx := 0,
        responses := s.responses ++ [⟨.ok, (s.enc (blockXor s.x last)).toList.take tlen.toNat⟩],
        encCalls := s.encCalls + 1 }

/-- The frame of every command, accepted or rejected: SETKEY128 and SETKEY256 never write BUF (R17); UPDATE and DIGEST
never write KEYED, CSEL, KEY, K1 or K2 (R85, R100, R120); no command touches the host's events still to come. -/
def Obligations.CommandFrames : Prop :=
  ∀ (i : Instr) (s t : State), exec i s = .next t →
    t.pending = s.pending ∧
    ((i.mnemonic = "SETKEY128" ∨ i.mnemonic = "SETKEY256") → t.buf = s.buf) ∧
    ((i.mnemonic = "UPDATE" ∨ i.mnemonic = "DIGEST") →
      t.keyed = s.keyed ∧ t.csel = s.csel ∧ t.key = s.key ∧ t.k1 = s.k1 ∧ t.k2 = s.k2)

/-- R56: the response to every request, a reserved opcode among them: its status code is 0x00 exactly where the
request passes every check, and else one of the six codes of R171; its output is empty but for an accepted DIGEST,
whose output has TLEN bytes, 1 to 16. -/
def Obligations.OnlyDigestOutputs : Prop :=
  ∀ (s t : State) (w : BitVec 32) (p : List Byte) (rest : List HostEvent), s.pending = .command w p :: rest →
    step s = .next t →
    ∃ r, t.responses = s.responses ++ [r] ∧ r.status.code.toNat ≤ 6 ∧
      (r.status.code = 0x00 ↔ admission w p s.keyed = none) ∧ r.out.length ≤ 16 ∧
      (r.out ≠ [] → opcField w = 0x04 ∧ admission w p s.keyed = none) ∧
      (opcField w = 0x04 → admission w p s.keyed = none → r.out.length = (tlenField w).toNat)

/-- R197, the spec's own inference from R80, R102 and R120: the cipher invocations of every command: 1 for an accepted
SETKEY or DIGEST, those of R102 for an accepted UPDATE, at most 4096, and 0 for a rejected command. -/
def Obligations.CipherCallsPerCommand : Prop :=
  ∀ (i : Instr) (s t : State), s.idx.toNat ≤ 16 → exec i s = .next t →
    ∃ r, t.responses = s.responses ++ [r] ∧
      (r.status ≠ .ok → t.encCalls = s.encCalls) ∧
      (r.status = .ok → match i with
        | .setkey128 _ _ _ => t.encCalls = s.encCalls + 1
        | .setkey256 _ _ _ => t.encCalls = s.encCalls + 1
        | .update _ _ p => t.encCalls = s.encCalls + updateCalls s.idx.toNat p.length ∧
            updateCalls s.idx.toNat p.length ≤ (s.idx.toNat + p.length) / 16 ∧
            updateCalls s.idx.toNat p.length ≤ 4096
        | .digest _ _ _ => t.encCalls = s.encCalls + 1)

/-- R12, with a sentence the spec marks as its own inference: every cipher invocation happens with KEYED = 1 and under
a context that a SETKEY wrote before it. A step that makes one ends keyed and is a request: a SETKEY, which has
written CSEL and KEY from its payload and derives the subkeys under that context; or else a command that starts keyed
and keeps CSEL and KEY. -/
def Obligations.CipherRunsOnlyKeyed : Prop :=
  ∀ s t : State, step s = .next t → t.encCalls ≠ s.encCalls →
    t.keyed = true ∧ ∃ (w : BitVec 32) (p : List Byte) (rest : List HostEvent), s.pending = .command w p :: rest ∧
      if opcField w = 0x01 then
        t.csel = .aes128 ∧ t.key.toList = p ++ List.replicate 16 0 ∧
          t.k1 = mulX (encUnder t.csel t.key Block.zero) ∧ t.k2 = mulX t.k1 ∧ t.encCalls = s.encCalls + 1
      else if opcField w = 0x02 then
        t.csel = .aes256 ∧ t.key.toList = p ∧
          t.k1 = mulX (encUnder t.csel t.key Block.zero) ∧ t.k2 = mulX t.k1 ∧ t.encCalls = s.encCalls + 1
      else s.keyed = true ∧ t.csel = s.csel ∧ t.key = s.key

/-! ### Properties of the commands -/

/-- R84, the spec's own inference from R81 and R82: the same accepted SETKEY twice leaves the registers the first
alone leaves, and neither writes BUF; any accepted SETKEY replaces the context, whatever stood before; the message is
discarded in both cases. -/
def Obligations.SetkeyIdempotent : Prop :=
  ∀ (i j : Instr) (s t u : State), i.WellFormed → j.WellFormed →
    (i.mnemonic = "SETKEY128" ∨ i.mnemonic = "SETKEY256") → (j.mnemonic = "SETKEY128" ∨ j.mnemonic = "SETKEY256") →
    exec i s = .next t → exec j t = .next u →
    (j = i → t.SameRegisters u) ∧ t.buf = s.buf ∧ u.buf = t.buf ∧ t.HoldsMessage [] ∧ u.HoldsMessage [] ∧
    ∀ s' u' : State, exec j s' = .next u' →
      u.csel = u'.csel ∧ u.key = u'.key ∧ u.k1 = u'.k1 ∧ u.k2 = u'.k2

/-- R11: KEYED is 0 at reset; a request leaves it 1 exactly where it was 1 or the request is an accepted SETKEY; the
reset input, and nothing else, writes it 0; while it is 0, a well-formed UPDATE or DIGEST answers ERR_NOKEY. -/
def Obligations.KeyedFlagRule : Prop :=
  State.reset.keyed = false ∧
  (∀ (s t : State) (e : HostEvent) (rest : List HostEvent), s.pending = e :: rest → step s = .next t →
    match e with
    | .command w p =>
      (t.keyed = true ↔ s.keyed = true ∨ ((opcField w = 0x01 ∨ opcField w = 0x02) ∧ admission w p s.keyed = none))
    | .reset => t.keyed = false) ∧
  ∀ (s : State) (i : Instr), s.keyed = false → i.WellFormed → (i.mnemonic = "UPDATE" ∨ i.mnemonic = "DIGEST") →
    exec i s = .next { s with responses := s.responses ++ [⟨.errNoKey, []⟩] }

/-- R123, the spec's own inference from R120: for any tag length in [1, 16] the output is the first TLEN bytes of the
16-byte tag, and the registers after do not depend on the tag length. -/
def Obligations.TagPrefix : Prop :=
  ∀ (s : State) (tlen : BitVec 8), s.keyed = true → 1 ≤ tlen.toNat → tlen.toNat ≤ 16 →
    ∃ (t u : State) (tag : List Byte), exec (.digest tlen 0 []) s = .next t ∧ exec (.digest 16 0 []) s = .next u ∧
      tag.length = 16 ∧ u.responses = s.responses ++ [⟨.ok, tag⟩] ∧
      t.responses = s.responses ++ [⟨.ok, tag.take tlen.toNat⟩] ∧ t.SameRegisters u

/-- R124, the spec's own inference from R120 and R83: after an accepted DIGEST the registers are those that loading
the same key anew would leave, but for stale bytes. The premise is the invariant that StepKeepsInvariant states. -/
def Obligations.DigestLeavesFreshKeyLoad : Prop :=
  ∀ (s t u : State) (tlen : BitVec 8) (i : Instr), s.Inv → s.keyed = true → 1 ≤ tlen.toNat → tlen.toNat ≤ 16 →
    i = (match s.csel with
      | .aes128 => .setkey128 0 16 (s.key.toList.take 16)
      | .aes256 => .setkey256 0 32 s.key.toList) →
    exec (.digest tlen 0 []) s = .next t → exec i s = .next u → t.SameButStale u

/-- R126, the spec's own inference from R120, R121, R124 and R104: the tag of the empty message is ENC((0x80 ++ 0^120)
XOR K2), cut to TLEN bytes; and where the state meets the invariant that StepKeepsInvariant states, so that K2 is the
subkey of the context, it is written from CSEL and KEY alone. -/
def Obligations.EmptyMessageTag : Prop :=
  ∀ (s : State) (tlen : BitVec 8), s.keyed = true → s.HoldsMessage [] → 1 ≤ tlen.toNat → tlen.toNat ≤ 16 →
    let padded := Block.ofBytes (0x80 :: List.replicate 15 0x00)
    ∃ (t : State) (tag : List Byte), exec (.digest tlen 0 []) s = .next t ∧
      t.responses = s.responses ++ [⟨.ok, tag⟩] ∧ t.HoldsMessage [] ∧
      tag = (s.enc (blockXor padded s.k2)).toList.take tlen.toNat ∧
      (s.Inv → tag = (encUnder s.csel s.key
        (blockXor padded (mulX (mulX (encUnder s.csel s.key Block.zero))))).toList.take tlen.toNat)

/-- R125, the spec's own inference from R21 and R120: the tag of any message the engine holds is the closed form over
its blocks, cut to TLEN bytes. -/
def Obligations.DigestClosedForm : Prop :=
  ∀ (s : State) (m : List Byte) (tlen : BitVec 8), s.keyed = true → s.HoldsMessage m →
    1 ≤ tlen.toNat → tlen.toNat ≤ 16 →
    ∃ t, exec (.digest tlen 0 []) s = .next t ∧
      t.responses = s.responses ++ [⟨.ok, (cmacFull s.enc s.k1 s.k2 m).toList.take tlen.toNat⟩]

/-- R21, the spec's own inference from R81, R82, R100 and R120: an accepted SETKEY starts the empty message, an
accepted UPDATE appends its payload to the message held, and an accepted DIGEST starts the empty message again. -/
def Obligations.MessageStreamInvariant : Prop :=
  (∀ (i : Instr) (s t : State), i.WellFormed → (i.mnemonic = "SETKEY128" ∨ i.mnemonic = "SETKEY256") →
    exec i s = .next t → t.keyed = true ∧ t.HoldsMessage []) ∧
  (∀ (s t : State) (m p : List Byte), s.keyed = true → s.HoldsMessage m → p.length ≤ 65535 →
    exec (updateInstr p) s = .next t → t.keyed = true ∧ t.HoldsMessage (m ++ p)) ∧
  (∀ (i : Instr) (s t : State), i.WellFormed → i.mnemonic = "DIGEST" → s.keyed = true →
    exec i s = .next t → t.keyed = true ∧ t.HoldsMessage [])

/-- R103, the spec's own inference from R100 and R21: any two splits of a byte sequence into UPDATEs, from any keyed
state with IDX in [0, 16], leave the same X, IDX and valid bytes, extend a message held by the whole sequence, and
give the same tag to a DIGEST that follows. -/
def Obligations.StreamingEquivalence : Prop :=
  ∀ (s : State) (ms ns : List (List Byte)) (rest : List HostEvent), s.keyed = true → s.idx.toNat ≤ 16 →
    (∀ m ∈ ms, m.length ≤ 65535) → (∀ n ∈ ns, n.length ≤ 65535) → ms.flatten = ns.flatten →
    ∃ t u : State,
      Host.Core.run core ms.length { s with pending := ms.map updateEvent ++ rest } = .next t ∧
      Host.Core.run core ns.length { s with pending := ns.map updateEvent ++ rest } = .next u ∧
      t.pending = rest ∧ u.pending = rest ∧ t.x = u.x ∧ t.idx = u.idx ∧ t.validBytes = u.validBytes ∧
      (∀ m, s.HoldsMessage m → t.HoldsMessage (m ++ ms.flatten)) ∧
      ∀ tlen : BitVec 8, 1 ≤ tlen.toNat → tlen.toNat ≤ 16 → ∃ (t' u' : State) (tag : List Byte),
        exec (.digest tlen 0 []) t = .next t' ∧ exec (.digest tlen 0 []) u = .next u' ∧
        t'.responses = t.responses ++ [⟨.ok, tag⟩] ∧ u'.responses = u.responses ++ [⟨.ok, tag⟩]

/-! ### Headlines: invariant, isolation, refinement -/

/-- The registers reset leaves meet the invariant (R11, R18, R25). -/
def Obligations.ResetMeetsInvariant : Prop := State.reset.Inv

/-- R11, R13, R15, R18, R21, R25, R30, R170 (of these R18 and R21 are the spec's own inferences): every step, from any
state that meets the invariant, keeps it. -/
def Obligations.StepKeepsInvariant : Prop :=
  ∀ s t : State, s.Inv → step s = .next t → t.Inv

/-- R24, the spec's own inference from R100 and R120: two states that differ only in stale bytes give the same
responses to every sequence of host events, and every later state agrees too, but for stale bytes. -/
def Obligations.StaleBytesUnobservable : Prop :=
  ∀ (n : Nat) (s t : State), s.SameHostView t → s.SameButStale t →
    ∃ s' t' : State, Host.Core.run core n s = .next s' ∧ Host.Core.run core n t = .next t' ∧
      s'.SameHostView t' ∧ s'.SameButStale t'

/-- R11, R12, R25: while no key is loaded, no register but KEYED matters: two unkeyed engines with ANY contents in
CSEL, KEY, K1, K2, X, BUF and IDX give the same responses to every sequence of host events, and agree but for stale
bytes once keyed. -/
def Obligations.UnkeyedContentsUnobservable : Prop :=
  ∀ (n : Nat) (s t : State), s.LookAlike t →
    ∃ s' t' : State, Host.Core.run core n s = .next s' ∧ Host.Core.run core n t = .next t' ∧ s'.LookAlike t'

/-- R22 and R32, with R21 and R125, the spec's own inferences: on every host event, an engine whose registers show a
context and a message answers as the CMAC of that message under that context requires, and shows the context and
message after the event. -/
def Obligations.StepRefinesMac : Prop :=
  ∀ (s : State) (v : MacView) (e : HostEvent) (rest : List HostEvent), s.Shows v → s.pending = e :: rest →
    ∃ t, step s = .next t ∧ t.Shows (v.take e).1 ∧ t.responses = s.responses ++ (v.take e).2 ∧ t.pending = rest

/-- R32, in the terms of the spec's own inferences R21 and R125: for every list of host events, from reset or from any
registers that show a context and a message, the responses are those of the CMAC view, in order. -/
def Obligations.RunAnswersMac : Prop :=
  State.reset.Shows ⟨none, []⟩ ∧
  ∀ (evs rest : List HostEvent) (s : State) (v : MacView), s.Shows v →
    ∃ t : State, Host.Core.run core evs.length { s with pending := evs ++ rest } = .next t ∧
      t.Shows (v.takeAll evs).1 ∧ t.responses = s.responses ++ (v.takeAll evs).2 ∧ t.pending = rest

/-! ### Block operators and AES (40_block_ops.md, 44_aes.md) -/

/-- R6: int(B) is the big-endian sum of the bytes, and blk is its inverse both ways. -/
def Obligations.BlockNumberReading : Prop :=
  (∀ b : Block, (blockInt b).toNat = ∑ i : Fin 16, b[i].toNat * 2 ^ (8 * (15 - i.val))) ∧
  (∀ b : Block, intBlock (blockInt b) = b) ∧ (∀ n : BitVec 128, blockInt (intBlock n) = n)

/-- R63: XOR byte by byte, and its corner cases. -/
def Obligations.XorByByte : Prop :=
  ∀ a b : Block, (∀ (i : Nat) (h : i < 16), (blockXor a b)[i] = a[i] ^^^ b[i]) ∧
    blockXor a a = Block.zero ∧ blockXor a Block.zero = a

/-- R65, the spec's own inference from R64: mul_x, defined over the 128-bit number, is the byte-wise shift with the
conditional XOR into byte 15. -/
def Obligations.MulXByteByByte : Prop := ∀ b : Block, mulX b = mulXBytes b

/-- R12, R61: with CSEL = 0 the cipher reads KEY[0..16) only. -/
def Obligations.Aes128ReadsLowKeyHalf : Prop :=
  ∀ (key key' : KeyMaterial) (b : Block), (∀ (i : Nat) (h : i < 16), key[i] = key'[i]) →
    encUnder .aes128 key b = encUnder .aes128 key' b

/-- R144, marked by the spec as general knowledge (log entry 10): the S-box table is the affine map over the inverse
in GF(2^8). -/
def Obligations.SboxIsAffineInverse : Prop :=
  sbox 0 = sboxAffine 0 ∧ ∀ a : Byte, a ≠ 0 → ∃ b : Byte, gfMul a b = 1 ∧ sbox a = sboxAffine b

/-- R145 to R148, marked by the spec as general knowledge (log entry 10), by row r and column c of the state, byte
r + 4*c of the Block (R142). The multiplication is that of R143, and AddRoundKey takes byte r of schedule word 4*rd + c. -/
def Obligations.RoundStepsByRowAndColumn : Prop :=
  ∀ (s : Block) (w : List AesWord) (rd : Nat) (r c : Fin 4),
    (addRoundKey w rd s)[r.val + 4 * c.val] = s[r.val + 4 * c.val] ^^^ (w.getD (4 * rd + c.val) zeroWord)[r.val] ∧
    (subBytes s)[r.val + 4 * c.val] = sbox s[r.val + 4 * c.val] ∧
    (shiftRows s)[r.val + 4 * c.val] = s[r.val + 4 * ((c.val + r.val) % 4)] ∧
    (mixColumns s)[4 * c.val] =
      gfMul 2 s[4 * c.val] ^^^ gfMul 3 s[4 * c.val + 1] ^^^ s[4 * c.val + 2] ^^^ s[4 * c.val + 3] ∧
    (mixColumns s)[4 * c.val + 1] =
      s[4 * c.val] ^^^ gfMul 2 s[4 * c.val + 1] ^^^ gfMul 3 s[4 * c.val + 2] ^^^ s[4 * c.val + 3] ∧
    (mixColumns s)[4 * c.val + 2] =
      s[4 * c.val] ^^^ s[4 * c.val + 1] ^^^ gfMul 2 s[4 * c.val + 2] ^^^ gfMul 3 s[4 * c.val + 3] ∧
    (mixColumns s)[4 * c.val + 3] =
      gfMul 3 s[4 * c.val] ^^^ s[4 * c.val + 1] ^^^ s[4 * c.val + 2] ^^^ gfMul 2 s[4 * c.val + 3]

/-- R141, R149 and R150, marked by the spec as general knowledge (log entry 10): the schedule has 4*(Nr+1) words; its
first Nk words are the key; and byte j of each later word i is byte j of word i-Nk XOR byte j of the value t of R149,
written out over word i-1: SubWord of RotWord with Rcon[i / Nk] in byte 0 where Nk divides i, SubWord alone where Nk = 8
and i mod 8 = 4, and the word itself elsewhere. -/
def Obligations.KeyScheduleRecurrence : Prop :=
  ∀ (nk nr : Nat) (key : List Byte), (nk = 4 ∧ nr = 10 ∨ nk = 8 ∧ nr = 14) → key.length = 4 * nk →
    let w := keySchedule nk nr key
    let rconFromOne : List Byte := [0x01, 0x02, 0x04, 0x08, 0x10, 0x20, 0x40, 0x80, 0x1b, 0x36]
    w.length = 4 * (nr + 1) ∧
    (∀ i, i < nk → (w.getD i zeroWord).toList = (key.drop (4 * i)).take 4) ∧
    (∀ (i : Nat) (j : Fin 4), nk ≤ i → i < 4 * (nr + 1) →
      (w.getD i zeroWord)[j] = (w.getD (i - nk) zeroWord)[j] ^^^
        if i % nk = 0 then
          sbox (w.getD (i - 1) zeroWord)[(j.val + 1) % 4] ^^^ (if j = 0 then rconFromOne.getD (i / nk - 1) 0 else 0)
        else if nk = 8 ∧ i % 8 = 4 then sbox (w.getD (i - 1) zeroWord)[j]
        else (w.getD (i - 1) zeroWord)[j])

/-- R151, marked by the spec as general knowledge (log entry 10): AES-128 and AES-256 encryption of a Block, over the
schedule of the key: `st 0` is the Block after AddRoundKey(0), `st rd` is it after full round rd for rd from 1 to
Nr-1, and the last round, AddRoundKey(Nr) after it, has no MixColumns. -/
def Obligations.CipherRounds : Prop :=
  ∀ (key : List Byte) (b : Block),
    (key.length = 16 → ∃ st : Nat → Block, st 0 = addRoundKey (keySchedule 4 10 key) 0 b ∧
      (∀ rd, 1 ≤ rd → rd ≤ 9 →
        st rd = addRoundKey (keySchedule 4 10 key) rd (mixColumns (shiftRows (subBytes (st (rd - 1)))))) ∧
      aes128Encrypt key b = addRoundKey (keySchedule 4 10 key) 10 (shiftRows (subBytes (st 9)))) ∧
    (key.length = 32 → ∃ st : Nat → Block, st 0 = addRoundKey (keySchedule 8 14 key) 0 b ∧
      (∀ rd, 1 ≤ rd → rd ≤ 13 →
        st rd = addRoundKey (keySchedule 8 14 key) rd (mixColumns (shiftRows (subBytes (st (rd - 1)))))) ∧
      aes256Encrypt key b = addRoundKey (keySchedule 8 14 key) 14 (shiftRows (subBytes (st 13))))
end

