-- ==== Sys2Proof/Laws/Aes.lean ====
section
/-! SUPPORT. What the AES key expansion and its byte operators do (44_aes.md R149, R150), so that no later proof unfolds
the recursion over the schedule. -/

namespace Sys2Proof.Machine

@[simp] theorem getElem_wordXor (a b : AesWord) (j : Nat) (h : j < 4) : (wordXor a b)[j] = a[j] ^^^ b[j] := by
  simp [wordXor]

@[simp] theorem getElem_subWord (a : AesWord) (j : Nat) (h : j < 4) : (subWord a)[j] = sbox a[j] := by
  simp [subWord]

@[simp] theorem getElem_rotWord (a : AesWord) (j : Nat) (h : j < 4) : (rotWord a)[j] = a[(j + 1) % 4] := by
  unfold rotWord
  interval_cases j <;> rfl

/-- Byte j of the value t of R149, by the three cases of the rule. -/
theorem getElem_scheduleMix (nk i : Nat) (prev : AesWord) (j : Nat) (h : j < 4) :
    (scheduleMix nk i prev)[j] =
      if i % nk = 0 then sbox prev[(j + 1) % 4] ^^^ (if j = 0 then rcon (i / nk) else 0)
      else if nk = 8 ∧ i % nk = 4 then sbox prev[j]
      else prev[j] := by
  unfold scheduleMix
  split
  · simp only [getElem_wordXor, getElem_subWord, getElem_rotWord]
    interval_cases j <;> rfl
  · split
    · exact getElem_subWord prev j h
    · rfl

@[simp] theorem length_keyWords (nk : Nat) (key : List Byte) : (keyWords nk key).length = nk := by
  simp [keyWords]

/-- The expansion appends n words to the schedule so far and changes none of it; each word it appends is the word nk
before it XOR the value t over the word before it. -/
theorem expandWords_spec (nk : Nat) (pos : 0 < nk) (n i : Nat) (acc : List AesWord) (len : acc.length = i)
    (le : nk ≤ i) :
    let w := (expandWords nk n i acc).reverse
    w.length = i + n ∧ (∀ k, k < i → w.getD k zeroWord = acc.reverse.getD k zeroWord) ∧
      ∀ k, i ≤ k → k < i + n →
        w.getD k zeroWord = wordXor (w.getD (k - nk) zeroWord) (scheduleMix nk k (w.getD (k - 1) zeroWord)) := by
  induction n generalizing i acc with
  | zero => simp [expandWords, len]; omega
  | succ n ih =>
    have past (k : Nat) (h : k < i) (x : AesWord) :
        (x :: acc).reverse.getD k zeroWord = acc.reverse.getD k zeroWord := by
      simp only [List.reverse_cons, List.getD_eq_getElem?_getD]
      rw [List.getElem?_append_left (by simp; omega)]
    have back (d : Nat) (h : d < i) : acc.reverse.getD (i - 1 - d) zeroWord = acc.getD d zeroWord := by
      simp only [List.getD_eq_getElem?_getD]
      rw [List.getElem?_reverse (by omega)]
      congr 2; omega
    obtain ⟨total, kept, rule⟩ := ih (i + 1)
      (wordXor (acc.getD (nk - 1) zeroWord) (scheduleMix nk i (acc.headD zeroWord)) :: acc) (by simp [len]) (by omega)
    refine ⟨by simp only [expandWords]; rw [total]; omega, fun k h => ?_, fun k lo hi => ?_⟩
    · simp only [expandWords]
      rw [kept k (by omega), past k h]
    · rcases Nat.eq_or_lt_of_le lo with rfl | lt
      · have last (x : AesWord) : (x :: acc).reverse.getD i zeroWord = x := by
          simp [List.getD_eq_getElem?_getD, ← len]
        have head : acc.getD 0 zeroWord = acc.headD zeroWord := by cases acc <;> rfl
        have old := back (nk - 1) (by omega)
        have prev := back 0 (by omega)
        rw [show i - 1 - (nk - 1) = i - nk by omega] at old
        rw [Nat.sub_zero, head] at prev
        simp only [expandWords]
        rw [kept i (by omega), kept (i - nk) (by omega), kept (i - 1) (by omega), last, past _ (by omega),
          past _ (by omega), old, prev]
      · exact rule k (by omega) (by omega)

/-- The whole schedule: its length, its first words, and the recurrence of the rest. -/
theorem keySchedule_spec (nk nr : Nat) (key : List Byte) (pos : 0 < nk) (le : nk ≤ 4 * (nr + 1)) :
    let w := keySchedule nk nr key
    w.length = 4 * (nr + 1) ∧ (∀ k, k < nk → w.getD k zeroWord = (keyWords nk key).getD k zeroWord) ∧
      ∀ k, nk ≤ k → k < 4 * (nr + 1) →
        w.getD k zeroWord = wordXor (w.getD (k - nk) zeroWord) (scheduleMix nk k (w.getD (k - 1) zeroWord)) := by
  obtain ⟨total, kept, rule⟩ :=
    expandWords_spec nk pos (4 * (nr + 1) - nk) nk (keyWords nk key).reverse (by simp) (le_refl _)
  rw [List.reverse_reverse] at kept
  exact ⟨by unfold keySchedule; rw [total]; omega, kept, fun k lo hi => rule k lo (by omega)⟩

end Sys2Proof.Machine
end

