-- ==== Sys2Proof/Laws/Blocks.lean ====
section
/-! SUPPORT. What the Block operators do, byte by byte (40_block_ops.md R63, R64; 00_scope.md R7; 43_digest.md R122),
so that no later proof unfolds one. -/

namespace Sys2Proof.Machine

@[simp] theorem getElem_zero (i : Nat) (h : i < 16) : Block.zero[i] = 0 := by
  simp [Block.zero]

@[simp] theorem getElem_ofBytes (d : List Byte) (i : Nat) (h : i < 16) :
    (Block.ofBytes d)[i] = d.getD i 0 := by
  simp [Block.ofBytes]

@[simp] theorem getElem_blockXor (a b : Block) (i : Nat) (h : i < 16) :
    (blockXor a b)[i] = a[i] ^^^ b[i] := by
  simp [blockXor]

@[simp] theorem getElem_blockWrite (b : Block) (off : Nat) (d : List Byte) (i : Nat) (h : i < 16) :
    (blockWrite b off d)[i] = if off ≤ i then (d[i - off]?).getD b[i] else b[i] := by
  simp [blockWrite]

/-- A write leaves every byte before its range as it was. -/
theorem blockWrite_before (b : Block) (off : Nat) (d : List Byte) (i : Nat) (h : i < 16) (lt : i < off) :
    (blockWrite b off d)[i] = b[i] := by
  rw [getElem_blockWrite, if_neg (by omega)]

/-- A write leaves every byte after its range as it was. -/
theorem blockWrite_after (b : Block) (off : Nat) (d : List Byte) (i : Nat) (h : i < 16)
    (le : off + d.length ≤ i) : (blockWrite b off d)[i] = b[i] := by
  rw [getElem_blockWrite]
  split
  · rw [List.getElem?_eq_none (by omega)]; rfl
  · rfl

/-- Inside its range a write stores the data's bytes in order. -/
theorem blockWrite_inside (b : Block) (off : Nat) (d : List Byte) (i : Nat) (h : i < 16) (le : off ≤ i)
    (lt : i < off + d.length) : (blockWrite b off d)[i] = d[i - off]'(by omega) := by
  rw [getElem_blockWrite, if_pos le, List.getElem?_eq_getElem (by omega)]; rfl

@[simp] theorem blockWrite_nil (b : Block) (off : Nat) : blockWrite b off [] = b := by
  ext i h : 1; simp

theorem blockPad_full (b : Block) (n : Nat) (h : 16 ≤ n) : blockPad b n = b := by
  rw [blockPad, if_neg]; simp [Config.blockBytes]; omega

/-- The padded block of R122: the valid bytes, 0x80, then zeros. -/
theorem getElem_blockPad (b : Block) (n : Nat) (lt : n < 16) (i : Nat) (h : i < 16) :
    (blockPad b n)[i] = if i < n then b[i] else if i = n then 0x80 else 0 := by
  rw [blockPad, if_pos (show n < Config.blockBytes from lt)]
  by_cases before : i < n
  · rw [if_pos before, blockWrite_before b n _ i h before]
  · rw [if_neg before, blockWrite_inside b n _ i h (by omega) (by simp; omega)]
    obtain ⟨k, rfl⟩ : ∃ k, i = n + k := ⟨i - n, by omega⟩
    cases k <;> simp

theorem blockXor_self (a : Block) : blockXor a a = Block.zero := by
  ext i h : 1; simp

theorem blockXor_zero (a : Block) : blockXor a Block.zero = a := by
  ext i h : 1; simp

theorem zero_blockXor (a : Block) : blockXor Block.zero a = a := by
  ext i h : 1; simp

/-- Two writes of adjacent ranges are one write of the joined data. -/
theorem blockWrite_append (b : Block) (off : Nat) (d e : List Byte) :
    blockWrite (blockWrite b off d) (off + d.length) e = blockWrite b off (d ++ e) := by
  ext i h : 1
  simp only [getElem_blockWrite]
  by_cases c : off + d.length ≤ i
  · rw [if_pos c, if_pos (show off ≤ i by omega), List.getElem?_eq_none (l := d) (by omega),
      if_pos (show off ≤ i by omega), List.getElem?_append_right (by omega)]
    simp [Nat.sub_add_eq]
  · rw [if_neg c]
    split
    · rw [List.getElem?_append_left (by omega)]
    · rfl

/-! ### the number of a Block (00_scope.md R6) -/

/-- One step of the big-endian reading: eight new low bits under the old number. -/
theorem getLsbD_shift_or (v : BitVec 128) (x : Byte) (k : Nat) (h : k < 128) :
    (v <<< 8 ||| x.setWidth 128).getLsbD k = if k < 8 then x.getLsbD k else v.getLsbD (k - 8) := by
  by_cases c : k < 8
  · simp [h, c]
  · rw [if_neg c, BitVec.getLsbD_or, BitVec.getLsbD_shiftLeft, BitVec.getLsbD_setWidth,
      BitVec.getLsbD_of_ge x k (by omega)]
    simp [h, c]

/-- Bit 8*q + r of int(B) is bit r of byte 15 - q. -/
theorem getLsbD_blockInt (b : Block) (q r : Nat) (hq : q < 16) (hr : r < 8) :
    (blockInt b).getLsbD (8 * q + r) = b[15 - q].getLsbD r := by
  simp only [blockInt, List.finRange, List.ofFn_succ, List.ofFn_zero, List.foldl_cons, List.foldl_nil]
  interval_cases q <;>
    (repeat rw [getLsbD_shift_or _ _ _ (by omega)]; first | rw [if_pos (by omega)] | rw [if_neg (by omega)]) <;>
    simp [Nat.sub_sub]

/-- Bit r of byte i of blk(n) is bit 8*(15-i) + r of n. -/
theorem getLsbD_intBlock (n : BitVec 128) (i r : Nat) (hi : i < 16) (hr : r < 8) :
    (intBlock n)[i].getLsbD r = n.getLsbD (8 * (15 - i) + r) := by
  simp [intBlock, hr]

end Sys2Proof.Machine
end

