-- ==== Sys2Proof/Laws/Encoding.lean ====
section
/-! SUPPORT. The fields of a command word read back what was put in them, and a word is the word of its fields
(30_encoding.md R50, R51). -/

namespace Sys2Proof

@[simp] theorem opcField_commandWord (opc tlen : BitVec 8) (len : BitVec 16) :
    opcField (commandWord opc tlen len) = opc := by
  simp only [opcField, commandWord]
  ext i h
  interval_cases i <;> simp

@[simp] theorem tlenField_commandWord (opc tlen : BitVec 8) (len : BitVec 16) :
    tlenField (commandWord opc tlen len) = tlen := by
  simp only [tlenField, commandWord]
  ext i h
  interval_cases i <;> simp

@[simp] theorem lenField_commandWord (opc tlen : BitVec 8) (len : BitVec 16) :
    lenField (commandWord opc tlen len) = len := by
  simp only [lenField, commandWord]
  ext i h
  interval_cases i <;> simp

/-- The three fields cover the word. -/
theorem commandWord_fields (w : BitVec 32) :
    commandWord (opcField w) (tlenField w) (lenField w) = w := by
  simp only [opcField, tlenField, lenField, commandWord]
  ext i h
  interval_cases i <;> simp

end Sys2Proof
end

