-- ==== Sys2Proof/Laws/State.lean ====
section
/-! SUPPORT. One lemma per field per update of the state, each true by unfolding the update, so that no later proof
unfolds a record update (10_state.md R10 lists the fields). -/

namespace Sys2Proof.Machine

variable (s : State)

/-! ### respond -/

@[simp] theorem State.respond_keyed (out : List Byte) : (s.respond out).keyed = s.keyed := rfl
@[simp] theorem State.respond_csel (out : List Byte) : (s.respond out).csel = s.csel := rfl
@[simp] theorem State.respond_key (out : List Byte) : (s.respond out).key = s.key := rfl
@[simp] theorem State.respond_k1 (out : List Byte) : (s.respond out).k1 = s.k1 := rfl
@[simp] theorem State.respond_k2 (out : List Byte) : (s.respond out).k2 = s.k2 := rfl
@[simp] theorem State.respond_x (out : List Byte) : (s.respond out).x = s.x := rfl
@[simp] theorem State.respond_buf (out : List Byte) : (s.respond out).buf = s.buf := rfl
@[simp] theorem State.respond_idx (out : List Byte) : (s.respond out).idx = s.idx := rfl
@[simp] theorem State.respond_pending (out : List Byte) : (s.respond out).pending = s.pending := rfl
@[simp] theorem State.respond_responses (out : List Byte) : (s.respond out).responses = s.responses ++ [⟨.ok, out⟩] := rfl
@[simp] theorem State.respond_encCalls (out : List Byte) : (s.respond out).encCalls = s.encCalls := rfl
@[simp] theorem State.respond_enc (out : List Byte) : (s.respond out).enc = s.enc := rfl

/-! ### reject -/

@[simp] theorem State.reject_keyed (code : Status) : (s.reject code).keyed = s.keyed := rfl
@[simp] theorem State.reject_csel (code : Status) : (s.reject code).csel = s.csel := rfl
@[simp] theorem State.reject_key (code : Status) : (s.reject code).key = s.key := rfl
@[simp] theorem State.reject_k1 (code : Status) : (s.reject code).k1 = s.k1 := rfl
@[simp] theorem State.reject_k2 (code : Status) : (s.reject code).k2 = s.k2 := rfl
@[simp] theorem State.reject_x (code : Status) : (s.reject code).x = s.x := rfl
@[simp] theorem State.reject_buf (code : Status) : (s.reject code).buf = s.buf := rfl
@[simp] theorem State.reject_idx (code : Status) : (s.reject code).idx = s.idx := rfl
@[simp] theorem State.reject_pending (code : Status) : (s.reject code).pending = s.pending := rfl
@[simp] theorem State.reject_responses (code : Status) : (s.reject code).responses = s.responses ++ [⟨code, []⟩] := rfl
@[simp] theorem State.reject_encCalls (code : Status) : (s.reject code).encCalls = s.encCalls := rfl
@[simp] theorem State.reject_enc (code : Status) : (s.reject code).enc = s.enc := rfl

/-! ### invokeCipher -/

@[simp] theorem State.invokeCipher_keyed (b : Block) : (s.invokeCipher b).2.keyed = s.keyed := rfl
@[simp] theorem State.invokeCipher_csel (b : Block) : (s.invokeCipher b).2.csel = s.csel := rfl
@[simp] theorem State.invokeCipher_key (b : Block) : (s.invokeCipher b).2.key = s.key := rfl
@[simp] theorem State.invokeCipher_k1 (b : Block) : (s.invokeCipher b).2.k1 = s.k1 := rfl
@[simp] theorem State.invokeCipher_k2 (b : Block) : (s.invokeCipher b).2.k2 = s.k2 := rfl
@[simp] theorem State.invokeCipher_x (b : Block) : (s.invokeCipher b).2.x = s.x := rfl
@[simp] theorem State.invokeCipher_buf (b : Block) : (s.invokeCipher b).2.buf = s.buf := rfl
@[simp] theorem State.invokeCipher_idx (b : Block) : (s.invokeCipher b).2.idx = s.idx := rfl
@[simp] theorem State.invokeCipher_pending (b : Block) : (s.invokeCipher b).2.pending = s.pending := rfl
@[simp] theorem State.invokeCipher_responses (b : Block) : (s.invokeCipher b).2.responses = s.responses := rfl
@[simp] theorem State.invokeCipher_encCalls (b : Block) : (s.invokeCipher b).2.encCalls = s.encCalls + 1 := rfl
@[simp] theorem State.invokeCipher_enc (b : Block) : (s.invokeCipher b).2.enc = s.enc := rfl

/-! ### absorb -/

@[simp] theorem State.absorb_keyed (b : Block) : (s.absorb b).keyed = s.keyed := rfl
@[simp] theorem State.absorb_csel (b : Block) : (s.absorb b).csel = s.csel := rfl
@[simp] theorem State.absorb_key (b : Block) : (s.absorb b).key = s.key := rfl
@[simp] theorem State.absorb_k1 (b : Block) : (s.absorb b).k1 = s.k1 := rfl
@[simp] theorem State.absorb_k2 (b : Block) : (s.absorb b).k2 = s.k2 := rfl
@[simp] theorem State.absorb_x (b : Block) : (s.absorb b).x = s.enc (blockXor s.x b) := rfl
@[simp] theorem State.absorb_buf (b : Block) : (s.absorb b).buf = s.buf := rfl
@[simp] theorem State.absorb_idx (b : Block) : (s.absorb b).idx = s.idx := rfl
@[simp] theorem State.absorb_pending (b : Block) : (s.absorb b).pending = s.pending := rfl
@[simp] theorem State.absorb_responses (b : Block) : (s.absorb b).responses = s.responses := rfl
@[simp] theorem State.absorb_encCalls (b : Block) : (s.absorb b).encCalls = s.encCalls + 1 := rfl
@[simp] theorem State.absorb_enc (b : Block) : (s.absorb b).enc = s.enc := rfl

/-! ### subkeys -/

@[simp] theorem State.subkeys_keyed : (s.subkeys).keyed = s.keyed := rfl
@[simp] theorem State.subkeys_csel : (s.subkeys).csel = s.csel := rfl
@[simp] theorem State.subkeys_key : (s.subkeys).key = s.key := rfl
@[simp] theorem State.subkeys_k1 : (s.subkeys).k1 = mulX (s.enc Block.zero) := rfl
@[simp] theorem State.subkeys_k2 : (s.subkeys).k2 = mulX (mulX (s.enc Block.zero)) := rfl
@[simp] theorem State.subkeys_x : (s.subkeys).x = s.x := rfl
@[simp] theorem State.subkeys_buf : (s.subkeys).buf = s.buf := rfl
@[simp] theorem State.subkeys_idx : (s.subkeys).idx = s.idx := rfl
@[simp] theorem State.subkeys_pending : (s.subkeys).pending = s.pending := rfl
@[simp] theorem State.subkeys_responses : (s.subkeys).responses = s.responses := rfl
@[simp] theorem State.subkeys_encCalls : (s.subkeys).encCalls = s.encCalls + 1 := rfl
@[simp] theorem State.subkeys_enc : (s.subkeys).enc = s.enc := rfl

/-! ### setKeyed -/

@[simp] theorem State.setKeyed_keyed : (s.setKeyed).keyed = true := rfl
@[simp] theorem State.setKeyed_csel : (s.setKeyed).csel = s.csel := rfl
@[simp] theorem State.setKeyed_key : (s.setKeyed).key = s.key := rfl
@[simp] theorem State.setKeyed_k1 : (s.setKeyed).k1 = s.k1 := rfl
@[simp] theorem State.setKeyed_k2 : (s.setKeyed).k2 = s.k2 := rfl
@[simp] theorem State.setKeyed_x : (s.setKeyed).x = s.x := rfl
@[simp] theorem State.setKeyed_buf : (s.setKeyed).buf = s.buf := rfl
@[simp] theorem State.setKeyed_idx : (s.setKeyed).idx = s.idx := rfl
@[simp] theorem State.setKeyed_pending : (s.setKeyed).pending = s.pending := rfl
@[simp] theorem State.setKeyed_responses : (s.setKeyed).responses = s.responses := rfl
@[simp] theorem State.setKeyed_encCalls : (s.setKeyed).encCalls = s.encCalls := rfl
@[simp] theorem State.setKeyed_enc : (s.setKeyed).enc = s.enc := rfl

/-! ### takeReset -/

@[simp] theorem State.takeReset_keyed : (s.takeReset).keyed = false := rfl
@[simp] theorem State.takeReset_csel : (s.takeReset).csel = .aes128 := rfl
@[simp] theorem State.takeReset_key : (s.takeReset).key = KeyMaterial.zero := rfl
@[simp] theorem State.takeReset_k1 : (s.takeReset).k1 = Block.zero := rfl
@[simp] theorem State.takeReset_k2 : (s.takeReset).k2 = Block.zero := rfl
@[simp] theorem State.takeReset_x : (s.takeReset).x = Block.zero := rfl
@[simp] theorem State.takeReset_buf : (s.takeReset).buf = Block.zero := rfl
@[simp] theorem State.takeReset_idx : (s.takeReset).idx = 0 := rfl
@[simp] theorem State.takeReset_pending : (s.takeReset).pending = s.pending := rfl
@[simp] theorem State.takeReset_responses : (s.takeReset).responses = s.responses := rfl
@[simp] theorem State.takeReset_encCalls : (s.takeReset).encCalls = s.encCalls := rfl

/-! ### fillBuf -/

@[simp] theorem State.fillBuf_keyed (p : List Byte) : (s.fillBuf p).keyed = s.keyed := rfl
@[simp] theorem State.fillBuf_csel (p : List Byte) : (s.fillBuf p).csel = s.csel := rfl
@[simp] theorem State.fillBuf_key (p : List Byte) : (s.fillBuf p).key = s.key := rfl
@[simp] theorem State.fillBuf_k1 (p : List Byte) : (s.fillBuf p).k1 = s.k1 := rfl
@[simp] theorem State.fillBuf_k2 (p : List Byte) : (s.fillBuf p).k2 = s.k2 := rfl
@[simp] theorem State.fillBuf_x (p : List Byte) : (s.fillBuf p).x = s.x := rfl
@[simp] theorem State.fillBuf_buf (p : List Byte) : (s.fillBuf p).buf = blockWrite s.buf s.idx.toNat (p.take (s.fillCount p)) := rfl
@[simp] theorem State.fillBuf_idx (p : List Byte) : (s.fillBuf p).idx = BitVec.ofNat 5 (s.idx.toNat + s.fillCount p) := rfl
@[simp] theorem State.fillBuf_pending (p : List Byte) : (s.fillBuf p).pending = s.pending := rfl
@[simp] theorem State.fillBuf_responses (p : List Byte) : (s.fillBuf p).responses = s.responses := rfl
@[simp] theorem State.fillBuf_encCalls (p : List Byte) : (s.fillBuf p).encCalls = s.encCalls := rfl
@[simp] theorem State.fillBuf_enc (p : List Byte) : (s.fillBuf p).enc = s.enc := rfl

/-! ### absorbBuf -/

@[simp] theorem State.absorbBuf_keyed : (s.absorbBuf).keyed = s.keyed := rfl
@[simp] theorem State.absorbBuf_csel : (s.absorbBuf).csel = s.csel := rfl
@[simp] theorem State.absorbBuf_key : (s.absorbBuf).key = s.key := rfl
@[simp] theorem State.absorbBuf_k1 : (s.absorbBuf).k1 = s.k1 := rfl
@[simp] theorem State.absorbBuf_k2 : (s.absorbBuf).k2 = s.k2 := rfl
@[simp] theorem State.absorbBuf_x : (s.absorbBuf).x = s.enc (blockXor s.x s.buf) := rfl
@[simp] theorem State.absorbBuf_buf : (s.absorbBuf).buf = s.buf := rfl
@[simp] theorem State.absorbBuf_idx : (s.absorbBuf).idx = 0 := rfl
@[simp] theorem State.absorbBuf_pending : (s.absorbBuf).pending = s.pending := rfl
@[simp] theorem State.absorbBuf_responses : (s.absorbBuf).responses = s.responses := rfl
@[simp] theorem State.absorbBuf_encCalls : (s.absorbBuf).encCalls = s.encCalls + 1 := rfl
@[simp] theorem State.absorbBuf_enc : (s.absorbBuf).enc = s.enc := rfl

/-! ### holdTail -/

@[simp] theorem State.holdTail_keyed (d : List Byte) : (s.holdTail d).keyed = s.keyed := rfl
@[simp] theorem State.holdTail_csel (d : List Byte) : (s.holdTail d).csel = s.csel := rfl
@[simp] theorem State.holdTail_key (d : List Byte) : (s.holdTail d).key = s.key := rfl
@[simp] theorem State.holdTail_k1 (d : List Byte) : (s.holdTail d).k1 = s.k1 := rfl
@[simp] theorem State.holdTail_k2 (d : List Byte) : (s.holdTail d).k2 = s.k2 := rfl
@[simp] theorem State.holdTail_x (d : List Byte) : (s.holdTail d).x = s.x := rfl
@[simp] theorem State.holdTail_buf (d : List Byte) : (s.holdTail d).buf = blockWrite s.buf 0 d := rfl
@[simp] theorem State.holdTail_idx (d : List Byte) : (s.holdTail d).idx = BitVec.ofNat 5 d.length := rfl
@[simp] theorem State.holdTail_pending (d : List Byte) : (s.holdTail d).pending = s.pending := rfl
@[simp] theorem State.holdTail_responses (d : List Byte) : (s.holdTail d).responses = s.responses := rfl
@[simp] theorem State.holdTail_encCalls (d : List Byte) : (s.holdTail d).encCalls = s.encCalls := rfl
@[simp] theorem State.holdTail_enc (d : List Byte) : (s.holdTail d).enc = s.enc := rfl

/-! ### loadKey -/

@[simp] theorem State.loadKey_keyed (c : CipherSel) (key : KeyMaterial) : (s.loadKey c key).keyed = true := rfl
@[simp] theorem State.loadKey_csel (c : CipherSel) (key : KeyMaterial) : (s.loadKey c key).csel = c := rfl
@[simp] theorem State.loadKey_key (c : CipherSel) (key : KeyMaterial) : (s.loadKey c key).key = key := rfl
@[simp] theorem State.loadKey_k1 (c : CipherSel) (key : KeyMaterial) : (s.loadKey c key).k1 = mulX (encUnder c key Block.zero) := rfl
@[simp] theorem State.loadKey_k2 (c : CipherSel) (key : KeyMaterial) : (s.loadKey c key).k2 = mulX (mulX (encUnder c key Block.zero)) := rfl
@[simp] theorem State.loadKey_x (c : CipherSel) (key : KeyMaterial) : (s.loadKey c key).x = Block.zero := rfl
@[simp] theorem State.loadKey_buf (c : CipherSel) (key : KeyMaterial) : (s.loadKey c key).buf = s.buf := rfl
@[simp] theorem State.loadKey_idx (c : CipherSel) (key : KeyMaterial) : (s.loadKey c key).idx = 0 := rfl
@[simp] theorem State.loadKey_pending (c : CipherSel) (key : KeyMaterial) : (s.loadKey c key).pending = s.pending := rfl
@[simp] theorem State.loadKey_responses (c : CipherSel) (key : KeyMaterial) : (s.loadKey c key).responses = s.responses ++ [⟨.ok, []⟩] := rfl
@[simp] theorem State.loadKey_encCalls (c : CipherSel) (key : KeyMaterial) : (s.loadKey c key).encCalls = s.encCalls + 1 := rfl
@[simp] theorem State.loadKey_enc (c : CipherSel) (key : KeyMaterial) : (s.loadKey c key).enc = encUnder c key := rfl

/-! ### finishMac -/

@[simp] theorem State.finishMac_keyed : (s.finishMac).2.keyed = s.keyed := rfl
@[simp] theorem State.finishMac_csel : (s.finishMac).2.csel = s.csel := rfl
@[simp] theorem State.finishMac_key : (s.finishMac).2.key = s.key := rfl
@[simp] theorem State.finishMac_k1 : (s.finishMac).2.k1 = s.k1 := rfl
@[simp] theorem State.finishMac_k2 : (s.finishMac).2.k2 = s.k2 := rfl
@[simp] theorem State.finishMac_x : (s.finishMac).2.x = Block.zero := rfl
@[simp] theorem State.finishMac_buf : (s.finishMac).2.buf = s.lastBlock := rfl
@[simp] theorem State.finishMac_idx : (s.finishMac).2.idx = 0 := rfl
@[simp] theorem State.finishMac_pending : (s.finishMac).2.pending = s.pending := rfl
@[simp] theorem State.finishMac_responses : (s.finishMac).2.responses = s.responses := rfl
@[simp] theorem State.finishMac_encCalls : (s.finishMac).2.encCalls = s.encCalls + 1 := rfl
@[simp] theorem State.finishMac_enc : (s.finishMac).2.enc = s.enc := rfl

/-! ### digestTag -/

@[simp] theorem State.digestTag_keyed (tlen : BitVec 8) : (s.digestTag tlen).keyed = s.keyed := rfl
@[simp] theorem State.digestTag_csel (tlen : BitVec 8) : (s.digestTag tlen).csel = s.csel := rfl
@[simp] theorem State.digestTag_key (tlen : BitVec 8) : (s.digestTag tlen).key = s.key := rfl
@[simp] theorem State.digestTag_k1 (tlen : BitVec 8) : (s.digestTag tlen).k1 = s.k1 := rfl
@[simp] theorem State.digestTag_k2 (tlen : BitVec 8) : (s.digestTag tlen).k2 = s.k2 := rfl
@[simp] theorem State.digestTag_x (tlen : BitVec 8) : (s.digestTag tlen).x = Block.zero := rfl
@[simp] theorem State.digestTag_buf (tlen : BitVec 8) : (s.digestTag tlen).buf = s.lastBlock := rfl
@[simp] theorem State.digestTag_idx (tlen : BitVec 8) : (s.digestTag tlen).idx = 0 := rfl
@[simp] theorem State.digestTag_pending (tlen : BitVec 8) : (s.digestTag tlen).pending = s.pending := rfl
@[simp] theorem State.digestTag_responses (tlen : BitVec 8) : (s.digestTag tlen).responses = s.responses ++ [⟨.ok, (s.enc (blockXor s.x s.lastBlock)).toList.take tlen.toNat⟩] := rfl
@[simp] theorem State.digestTag_encCalls (tlen : BitVec 8) : (s.digestTag tlen).encCalls = s.encCalls + 1 := rfl
@[simp] theorem State.digestTag_enc (tlen : BitVec 8) : (s.digestTag tlen).enc = s.enc := rfl

/-! ### offer -/

@[simp] theorem State.offer_keyed (w : BitVec 32) (p : List Byte) : (s.offer w p).keyed = s.keyed := rfl
@[simp] theorem State.offer_csel (w : BitVec 32) (p : List Byte) : (s.offer w p).csel = s.csel := rfl
@[simp] theorem State.offer_key (w : BitVec 32) (p : List Byte) : (s.offer w p).key = s.key := rfl
@[simp] theorem State.offer_k1 (w : BitVec 32) (p : List Byte) : (s.offer w p).k1 = s.k1 := rfl
@[simp] theorem State.offer_k2 (w : BitVec 32) (p : List Byte) : (s.offer w p).k2 = s.k2 := rfl
@[simp] theorem State.offer_x (w : BitVec 32) (p : List Byte) : (s.offer w p).x = s.x := rfl
@[simp] theorem State.offer_buf (w : BitVec 32) (p : List Byte) : (s.offer w p).buf = s.buf := rfl
@[simp] theorem State.offer_idx (w : BitVec 32) (p : List Byte) : (s.offer w p).idx = s.idx := rfl
@[simp] theorem State.offer_pending (w : BitVec 32) (p : List Byte) : (s.offer w p).pending = .command w p :: s.pending := rfl
@[simp] theorem State.offer_responses (w : BitVec 32) (p : List Byte) : (s.offer w p).responses = s.responses := rfl
@[simp] theorem State.offer_encCalls (w : BitVec 32) (p : List Byte) : (s.offer w p).encCalls = s.encCalls := rfl
@[simp] theorem State.offer_enc (w : BitVec 32) (p : List Byte) : (s.offer w p).enc = s.enc := rfl

/-! ### results and the request port -/

@[simp] theorem State.invokeCipher_result (b : Block) : (s.invokeCipher b).1 = s.enc b := rfl

@[simp] theorem State.finishMac_result : s.finishMac.1 = s.enc (blockXor s.x s.lastBlock) := rfl

theorem step_pending_nil (h : s.pending = []) : step s = .next s := by
  simp [step, State.takeNext, h]

theorem step_pending_cons (e : HostEvent) (rest : List HostEvent) (h : s.pending = e :: rest) :
    step s = State.takeEvent { s with pending := rest } e := by
  simp [step, State.takeNext, h]

theorem step_offer (w : BitVec 32) (p : List Byte) : step (s.offer w p) = s.takeCommand w p := rfl

end Sys2Proof.Machine
end

