-- ==== Sys2Proof/Laws/Ops.lean ====
section
/-! SUPPORT. Once for each shared operation, everything it can do: the checks and their order, the end of a command,
the absorb loop of UPDATE, and the step on each kind of host event. -/

namespace Sys2Proof.Machine

/-! ### checks and admission (60_exceptions.md R173 to R178) -/

@[simp] theorem firstFailing_nil : firstFailing [] = none := rfl

@[simp] theorem firstFailing_some (code : Status) (rest : List (Option Status)) :
    firstFailing (some code :: rest) = some code := rfl

@[simp] theorem firstFailing_none (rest : List (Option Status)) :
    firstFailing (none :: rest) = firstFailing rest := rfl

/-- No check fails exactly where every check passes. -/
theorem firstFailing_eq_none (cs : List (Option Status)) : firstFailing cs = none ↔ ∀ c ∈ cs, c = none := by
  induction cs with
  | nil => simp
  | cons c rest ih => cases c <;> simp [ih]

/-- A command ends in one of two ways: its effect, every check passed, or a rejection with a failing check's code. -/
theorem admitted_cases (s : State) (cs : List (Option Status)) (effect : State) :
    (firstFailing cs = none ∧ s.admitted cs effect = effect) ∨
      (∃ code, firstFailing cs = some code ∧ s.admitted cs effect = s.reject code) := by
  cases h : firstFailing cs with
  | none => exact .inl ⟨rfl, by simp [State.admitted, h]⟩
  | some code => exact .inr ⟨code, rfl, by simp [State.admitted, h]⟩

theorem admitted_accept (s : State) (cs : List (Option Status)) (effect : State) (h : firstFailing cs = none) :
    s.admitted cs effect = effect := by
  simp [State.admitted, h]

theorem admitted_reject (s : State) (cs : List (Option Status)) (effect : State) (code : Status)
    (h : firstFailing cs = some code) : s.admitted cs effect = s.reject code := by
  simp [State.admitted, h]

/-- The checks of SETKEY pass exactly on TLEN = 0, LEN = the key length, and LEN payload bytes. -/
theorem setkeyChecks_pass (bytes : Nat) (tlen : BitVec 8) (len : BitVec 16) (p : List Byte) :
    firstFailing (setkeyChecks bytes tlen len p) = none ↔
      tlen = 0 ∧ p.length = len.toNat ∧ len.toNat = bytes := by
  simp [firstFailing_eq_none, setkeyChecks, checkField, checkPayload, checkKeyLen]

/-- The checks of UPDATE pass exactly on TLEN = 0, LEN payload bytes, and KEYED = 1. -/
theorem updateChecks_pass (s : State) (tlen : BitVec 8) (len : BitVec 16) (p : List Byte) :
    firstFailing (updateChecks s tlen len p) = none ↔
      tlen = 0 ∧ p.length = len.toNat ∧ s.keyed = true := by
  simp [firstFailing_eq_none, updateChecks, checkField, checkPayload, State.checkKeyed]

/-- The checks of DIGEST pass exactly on LEN = 0, an empty payload, TLEN in [1, 16], and KEYED = 1. -/
theorem digestChecks_pass (s : State) (tlen : BitVec 8) (len : BitVec 16) (p : List Byte) :
    firstFailing (digestChecks s tlen len p) = none ↔
      len = 0 ∧ p.length = len.toNat ∧ (1 ≤ tlen.toNat ∧ tlen.toNat ≤ 16) ∧ s.keyed = true := by
  simp [firstFailing_eq_none, digestChecks, checkField, checkPayload, checkTagLen, State.checkKeyed,
    Config.minTagBytes, Config.maxTagBytes]

/-! ### the absorb loop (42_update.md R100 step 4) -/

/-- The loop absorbs (len(d) - 1) / 16 blocks from the front of the data, writes X and the count alone, and leaves the
last 1 to 16 bytes. -/
theorem absorbData_eq (n : Nat) (s : State) (d : List Byte) (enough : d.length ≤ 16 * n + 16) :
    State.absorbData n s d =
      ({ s with
          x := cbcFrom s.enc s.x
            ((List.range ((d.length - 1) / 16)).map fun j => Block.ofBytes (d.drop (16 * j)))
          encCalls := s.encCalls + (d.length - 1) / 16 },
        d.drop (16 * ((d.length - 1) / 16))) := by
  induction n generalizing s d with
  | zero =>
    have h0 : (d.length - 1) / 16 = 0 := by omega
    simp [State.absorbData, h0, cbcFrom]
  | succ n ih =>
    by_cases more : d.length > 16
    · have h1 : (d.length - 1) / 16 = (d.length - 16 - 1) / 16 + 1 := by omega
      have front : Block.ofBytes (d.take 16) = Block.ofBytes d := by
        ext i h : 1
        simp [h]
      rw [State.absorbData, if_pos (show d.length > Config.blockBytes from more), ih _ _ (by simp; omega)]
      simp only [Config.blockBytes, List.length_drop, h1, List.range_succ_eq_map, List.map_cons, List.map_map,
        List.drop_drop, State.absorb_x, State.absorb_encCalls, cbcFrom, List.foldl_cons, front]
      refine Prod.ext ?_ ?_
      · simp [State.absorb, State.invokeCipher, State.enc, Function.comp_def, Nat.mul_add, Nat.add_comm]
        omega
      · simp [Nat.mul_add, Nat.add_comm]
    · have h0 : (d.length - 1) / 16 = 0 := by omega
      rw [State.absorbData, if_neg (show ¬d.length > Config.blockBytes from more)]
      simp [h0, cbcFrom]

/-! ### the step -/

/-- The command of the opcode map that a request decodes to runs; any other request is rejected (R31, R172). -/
theorem takeCommand_ok (s : State) (w : BitVec 32) (p : List Byte) (i : Instr) (h : decode w p = .ok i) :
    s.takeCommand w p = exec i s := by
  simp [State.takeCommand, h]

theorem takeCommand_error (s : State) (w : BitVec 32) (p : List Byte) (e : DecodeError)
    (h : decode w p = .error e) : s.takeCommand w p = .next (s.reject .errOpcode) := by
  cases e; simp [State.takeCommand, h]

/-- The decoder answers one of the four commands, by the opcode, or the reserved opcode. -/
theorem decode_cases (w : BitVec 32) (p : List Byte) :
    (opcField w = 1 ∧ decode w p = .ok (.setkey128 (tlenField w) (lenField w) p)) ∨
    (opcField w = 2 ∧ decode w p = .ok (.setkey256 (tlenField w) (lenField w) p)) ∨
    (opcField w = 3 ∧ decode w p = .ok (.update (tlenField w) (lenField w) p)) ∨
    (opcField w = 4 ∧ decode w p = .ok (.digest (tlenField w) (lenField w) p)) ∨
    ((opcField w ≠ 1 ∧ opcField w ≠ 2 ∧ opcField w ≠ 3 ∧ opcField w ≠ 4) ∧
      decode w p = .error (.reservedOpcode (opcField w))) := by
  unfold decode opcSetkey128 opcSetkey256 opcUpdate opcDigest
  generalize opcField w = opc
  by_cases h1 : opc = 1#8
  · simp [h1]
  by_cases h2 : opc = 2#8
  · simp [h2]
  by_cases h3 : opc = 3#8
  · simp [h3]
  by_cases h4 : opc = 4#8
  · simp [h4]
  · simp [h1, h2, h3, h4]

end Sys2Proof.Machine
end

