-- ==== Sys2Proof/Laws/PerInstr.lean ====
section
/-! SUPPORT. Statements made for every command, one lemma per constructor. -/

namespace Sys2Proof.Laws.EncodedFields

/-- The word of a command carries its opcode and its fields, and the payload travels beside it unchanged
(30_encoding.md R50 to R52). -/
def Statement : Instr → Prop
  | .setkey128 tlen len p =>
    opcField (encode (.setkey128 tlen len p)).1 = 0x01 ∧ tlenField (encode (.setkey128 tlen len p)).1 = tlen ∧
      lenField (encode (.setkey128 tlen len p)).1 = len ∧ (encode (.setkey128 tlen len p)).2 = p
  | .setkey256 tlen len p =>
    opcField (encode (.setkey256 tlen len p)).1 = 0x02 ∧ tlenField (encode (.setkey256 tlen len p)).1 = tlen ∧
      lenField (encode (.setkey256 tlen len p)).1 = len ∧ (encode (.setkey256 tlen len p)).2 = p
  | .update tlen len p =>
    opcField (encode (.update tlen len p)).1 = 0x03 ∧ tlenField (encode (.update tlen len p)).1 = tlen ∧
      lenField (encode (.update tlen len p)).1 = len ∧ (encode (.update tlen len p)).2 = p
  | .digest tlen len p =>
    opcField (encode (.digest tlen len p)).1 = 0x04 ∧ tlenField (encode (.digest tlen len p)).1 = tlen ∧
      lenField (encode (.digest tlen len p)).1 = len ∧ (encode (.digest tlen len p)).2 = p

theorem setkey128 (tlen : BitVec 8) (len : BitVec 16) (p : List Byte) : Statement (.setkey128 tlen len p) := by
  simp [Statement, encode, opcSetkey128]

theorem setkey256 (tlen : BitVec 8) (len : BitVec 16) (p : List Byte) : Statement (.setkey256 tlen len p) := by
  simp [Statement, encode, opcSetkey256]

theorem update (tlen : BitVec 8) (len : BitVec 16) (p : List Byte) : Statement (.update tlen len p) := by
  simp [Statement, encode, opcUpdate]

theorem digest (tlen : BitVec 8) (len : BitVec 16) (p : List Byte) : Statement (.digest tlen len p) := by
  simp [Statement, encode, opcDigest]

end Sys2Proof.Laws.EncodedFields
end

