-- ==== Sys2Proof/Tests/Slice0.lean ====
section
/-! SUPPORT. Tests with expected values from spec/95_test_vectors.md and the rules, and for every obligation with
hypotheses a concrete state and operands that meet all of them. -/

namespace Sys2Proof.Machine.Tests

/-! ### Data of 95_test_vectors.md -/

/-- The Block written as a hexadecimal number, first byte leftmost. -/
def blk (n : Nat) : Block := Vector.ofFn fun i => BitVec.ofNat 8 (n >>> (8 * (15 - i.val)))

/-- The k bytes of a hexadecimal number, first byte leftmost. -/
def bytes (k n : Nat) : List Byte := (List.range k).map fun i => BitVec.ofNat 8 (n >>> (8 * (k - 1 - i)))

def k128 : List Byte := bytes 16 0x2b7e151628aed2a6abf7158809cf4f3c
def k256 : List Byte := bytes 32 0x603deb1015ca71be2b73aef0857d77811f352c073b6108d72d9810a30914dff4
def m1 : Block := blk 0x6bc1bee22e409f96e93d7e117393172a

/-- An engine keyed with K128 (V-SK-1), an empty message, and the bytes that P1 leaves in BUF. -/
def keyed : State :=
  { State.reset with
    keyed := true
    key := key128 k128
    k1 := blk 0xfbeed618357133667c85e08f7236a8de
    k2 := blk 0xf7ddac306ae266ccf90bc11ee46d513b
    buf := blk 0x902f68fa1b31acf095b89e9e01a5bff4 }

/-- The same engine holding the one-block message M1 (V-UP-4). -/
def holdsM1 : State := { keyed with buf := m1, idx := 16 }

/-! ### Decoding: words written out from 30_encoding.md R50, R52, R53 (OPC, then TLEN, then LEN) -/

theorem test_decode_setkey128 : decode 0b00000001_00000000_0000000000010000 k128 = .ok (.setkey128 0 16 k128) := by
  decide
theorem test_decode_setkey256 : decode 0b00000010_00000000_0000000000100000 k256 = .ok (.setkey256 0 32 k256) := by
  decide
theorem test_decode_update : decode 0b00000011_00000000_0000000000000011 [1, 2, 3] = .ok (.update 0 3 [1, 2, 3]) := by
  decide
theorem test_decode_digest : decode 0b00000100_00010000_0000000000000000 [] = .ok (.digest 16 0 []) := by decide
theorem test_decode_bad_fields : decode 0b00000001_10000001_1000000000000001 [] = .ok (.setkey128 0x81 0x8001 []) := by
  decide
theorem test_decode_reserved_low : decode 0x00FFFFFF [] = .error (.reservedOpcode 0) := by decide
theorem test_decode_reserved_five : decode 0x05000000 [] = .error (.reservedOpcode 5) := by decide
theorem test_decode_table_word :
    decodeTableWord 32 0x01000010 = some (.setkey128 0 16 (List.replicate 16 0)) ∧
    decodeTableWord 48 0xBBAA03000003 = some (.update 0 3 [0xAA, 0xBB, 0]) := by decide

/-! ### Well-formedness: one ill-formed command for each constraint of R53 -/

theorem test_wf_accepts :
    (Instr.setkey128 0 16 k128).WellFormed ∧ (Instr.setkey256 0 32 k256).WellFormed ∧
    (Instr.update 0 0 []).WellFormed ∧ (Instr.digest 1 0 []).WellFormed ∧ (Instr.digest 16 0 []).WellFormed := by decide
theorem test_wf_setkey_tlen : ¬(Instr.setkey128 1 16 k128).WellFormed ∧ ¬(Instr.setkey256 1 32 k256).WellFormed := by
  decide
theorem test_wf_setkey_len : ¬(Instr.setkey128 0 32 k256).WellFormed ∧ ¬(Instr.setkey256 0 16 k128).WellFormed := by
  decide
theorem test_wf_setkey_payload : ¬(Instr.setkey128 0 16 k256).WellFormed ∧ ¬(Instr.setkey256 0 32 []).WellFormed := by
  decide
theorem test_wf_update_tlen : ¬(Instr.update 1 0 []).WellFormed := by decide
theorem test_wf_update_payload : ¬(Instr.update 0 1 []).WellFormed := by decide
theorem test_wf_digest_tlen : ¬(Instr.digest 0 0 []).WellFormed ∧ ¬(Instr.digest 17 0 []).WellFormed := by decide
theorem test_wf_digest_len : ¬(Instr.digest 16 1 [0]).WellFormed := by decide
theorem test_wf_digest_payload : ¬(Instr.digest 16 0 [0]).WellFormed := by decide

/-! ### Operators: V-MX-2, V-MX-5, V-MX-8, V-AES-1, V-AES-2, and the check word w[59] of R149 -/

theorem test_mulX :
    mulX (blk 0x80000000000000000000000000000000) = blk 0x87 ∧
    mulX (blk 0xffffffffffffffffffffffffffffffff) = blk 0xffffffffffffffffffffffffffffff79 ∧
    mulX (blk 0x80) = blk 0x100 := by decide +kernel
theorem test_aes128 :
    aes128Encrypt (bytes 16 0x000102030405060708090a0b0c0d0e0f) (blk 0x00112233445566778899aabbccddeeff) =
      blk 0x69c4e0d86a7b0430d8cdb78070b4c55a := by decide +kernel
theorem test_aes256 :
    aes256Encrypt (bytes 32 0x000102030405060708090a0b0c0d0e0f101112131415161718191a1b1c1d1e1f)
      (blk 0x00112233445566778899aabbccddeeff) = blk 0x8ea2b7ca516745bfeafc49904b496089 := by decide +kernel
theorem test_schedule256 : (keySchedule 8 14 k256)[59]? = some #v[0x70, 0x6c, 0x63, 0x1e] := by decide +kernel

/-! ### The commands: at most two tests each, one step -/

/-- The next state's part that a test checks. -/
def after {α : Type} (o : Host.Outcome State Fault Refusal) (f : State → α) : Option α :=
  match o with
  | .next s => some (f s)
  | _ => none

/-- V-SK-1, from reset. -/
theorem test_setkey128 :
    after (exec (.setkey128 0 16 k128) State.reset) (fun s => (s.k1, s.k2)) =
      some (blk 0xfbeed618357133667c85e08f7236a8de, blk 0xf7ddac306ae266ccf90bc11ee46d513b) := by decide +kernel

/-- R81: re-keying discards the message and keeps BUF. -/
theorem test_setkey128_rekey :
    after (exec (.setkey128 0 16 k128) { holdsM1 with x := m1 }) (fun s => (s.x, s.idx, s.buf)) =
      some (Block.zero, 0, m1) := by decide +kernel

/-- V-SK-2, from reset. -/
theorem test_setkey256 :
    after (exec (.setkey256 0 32 k256) State.reset) (fun s => (s.k1, s.k2)) =
      some (blk 0xcad1ed03299eedac2e9a99808621502f, blk 0x95a3da06533ddb585d3533010c42a0d9) := by decide +kernel

/-- V-RJ-10: a 16-byte key sent with SETKEY256. -/
theorem test_setkey256_keylen :
    after (exec (.setkey256 0 16 k128) keyed) (fun s => s.responses) = some [⟨.errKeyLen, []⟩] := by decide +kernel

/-- V-UP-6: the held block is absorbed, then one whole block, and one byte is held; 15 stale bytes of M1 remain. -/
theorem test_update_absorbs :
    after (exec (.update 0 17 (bytes 17 0xae2d8a571e03ac9c9eb76fac45af8e5130)) holdsM1) (fun s => (s.x, s.idx, s.buf)) =
      some (blk 0xb148c17f309ee692287ae57cf12add49, 1, blk 0x30c1bee22e409f96e93d7e117393172a) := by decide +kernel

/-- V-UP-3: BUF is filled to 16 bytes and not absorbed. -/
theorem test_update_holds_full_block :
    after (exec (.update 0 9 (bytes 9 0x96e93d7e117393172a)) { keyed with idx := 7, buf := blk (0x6bc1bee22e409f <<< 72) })
      (fun s => (s.x, s.idx, s.buf)) = some (Block.zero, 16, m1) := by decide +kernel

/-- V-DG-2 and P1: the K1 path, all 16 bytes. -/
theorem test_digest_full_block :
    after (exec (.digest 16 0 []) holdsM1) (fun s => (s.responses, s.buf)) =
      some ([⟨.ok, bytes 16 0x070a16b46b4d4144f79bdd9dd04a287c⟩], blk 0x902f68fa1b31acf095b89e9e01a5bff4) := by
  decide +kernel

/-- V-ST-1 and V-DG-11: the K2 path over one byte with 15 stale bytes, cut to 4 bytes. -/
theorem test_digest_pads_stale :
    after (exec (.digest 4 0 []) { keyed with idx := 1, buf := blk 0x6b2f68fa1b31acf095b89e9e01a5bff4 })
      (fun s => s.responses) = some [⟨.ok, bytes 4 0x8e48c3c1⟩] := by decide +kernel

/-- V-RJ-1, V-RJ-5, V-RJ-6, V-RJ-7, V-RJ-9, from reset: the order of the checks. -/
theorem test_rejections :
    after (step (State.reset.offer 0x03000000 [])) (·.responses) = some [⟨.errNoKey, []⟩] ∧
    after (step (State.reset.offer 0x04000000 [])) (·.responses) = some [⟨.errTagLen, []⟩] ∧
    after (step (State.reset.offer 0x04100001 [0])) (·.responses) = some [⟨.errField, []⟩] ∧
    after (step (State.reset.offer 0x00000000 [])) (·.responses) = some [⟨.errOpcode, []⟩] ∧
    after (step (State.reset.offer 0x0200000f [])) (·.responses) = some [⟨.errPayload, []⟩] := by decide +kernel

/-- R57 and R58: a comment, spaces in the hex string, a raw word, and the pseudo-command's three commands. -/
theorem test_assembler :
    assembleLine "UPDATE 6bc1 be ; three bytes" = some [.command 0x03000003 [0x6b, 0xc1, 0xbe]] ∧
    assembleLine "CMD 0x0200000f" = some [.command 0x0200000f []] ∧
    assembleLine "CMAC128 2b7e151628aed2a6abf7158809cf4f3c, 6b, 4" =
      some [.command 0x01000010 k128, .command 0x03000001 [0x6b], .command 0x04040000 []] ∧
    assembleLine "SETKEY128 2b7e" = none := by decide +kernel

/-! ### Witnesses: the hypotheses of every obligation that has some can be met together -/

/-- The engine a real key load leaves; its registers meet the invariant and show the empty message. -/
def loaded : State := State.reset.loadKey .aes128 (key128 k128)

theorem holds_nil (s : State) (hi : s.idx = 0) (hx : s.x = Block.zero) : s.HoldsMessage [] where
  idx_eq := by simp [hi, heldCount]
  valid_eq := by simp [State.validBytes, hi]
  chain_eq := by rw [hx]; rfl

theorem loaded_inv : loaded.Inv where
  idx_le := by decide
  fresh_k1 := by simp [loaded]
  fresh_k2 := by simp [loaded]
  fresh_x := by simp [loaded]
  fresh_buf := by simp [loaded]
  fresh_idx := by simp [loaded]
  keyed_k1 := by simp [loaded]
  keyed_k2 := by simp [loaded]
  key_tail := by decide +kernel
  empty_x := by simp [loaded]
  out_le := by decide
  out_rejected := by decide

theorem loaded_shows : loaded.Shows ⟨some (.aes128, key128 k128), []⟩ where
  keyed_eq := rfl
  csel_eq := by simp [loaded]
  key_eq := by simp [loaded]
  k1_eq := by simp [loaded]
  k2_eq := by simp [loaded]
  holds := fun _ => holds_nil loaded rfl rfl

theorem holdsM1_message : holdsM1.HoldsMessage m1.toList where
  idx_eq := by decide
  valid_eq := by decide
  chain_eq := rfl

theorem witness_EncodeOfDecode : ∃ w p i, decode w p = .ok i := ⟨0x04100000, [], _, test_decode_digest⟩

theorem witness_WellFormedWordInItsRow : ∃ i : Instr, i.WellFormed ∧ ∃ r ∈ opcodeTable, r.mnemonic = i.mnemonic :=
  ⟨.digest 16 0 [], by decide⟩

theorem witness_RowWordDecodes : ∀ r ∈ opcodeTable, ∃ w, r.Matches w := by
  intro r hr
  refine ⟨r.pattern, ?_⟩
  revert r
  decide

theorem witness_AssemblerLinesEncode :
    k128.length = 16 ∧ k256.length = 32 ∧ ([] : List Byte).length ≤ 65535 ∧
      (List.replicate 65535 (0 : Byte)).length ≤ 65535 ∧ (255 : Nat) < 256 := by
  refine ⟨by decide, by decide, by decide, ?_, by decide⟩
  rw [List.length_replicate]

/-- Messages on both sides of the chunk boundary, and a short one. -/
theorem witness_UpdateStarSplitsMessage :
    ∃ a b c : List Byte, a ≠ [] ∧ a.length = 1 ∧ b ≠ [] ∧ b.length = 65535 ∧ c ≠ [] ∧ c.length = 65536 :=
  ⟨[0], List.replicate 65535 0, List.replicate 65536 0, by simp, rfl,
    List.ne_nil_of_length_pos (by rw [List.length_replicate]; omega), List.length_replicate,
    List.ne_nil_of_length_pos (by rw [List.length_replicate]; omega), List.length_replicate⟩

theorem witness_ResetInputWritesRegisters : ∃ (s : State) (rest : List HostEvent), s.pending = .reset :: rest :=
  ⟨{ keyed with pending := [.reset] }, [], rfl⟩

theorem witness_StepRunsDecodedCommand :
    ∃ (s : State) (w : BitVec 32) (p : List Byte) (rest : List HostEvent) (i : Instr),
      s.pending = .command w p :: rest ∧ decode w p = .ok i :=
  ⟨keyed.offer 0x04100000 [], 0x04100000, [], [], _, rfl, test_decode_digest⟩

theorem witness_PlacedWordRunsNext : ∃ (nbits w : Nat) (i : Instr), decodeTableWord nbits w = some i :=
  ⟨32, 0x01000010, _, test_decode_table_word.1⟩

theorem witness_ReservedOpcodeRejected_zero :
    ∃ (s : State) (w : BitVec 32), s.pending = .command w [] :: [] ∧ opcField w = 0x00 :=
  ⟨keyed.offer 0x00FFFFFF [], 0x00FFFFFF, rfl, by decide⟩

theorem witness_ReservedOpcodeRejected_five :
    ∃ (s : State) (w : BitVec 32), s.pending = .command w [] :: [] ∧ 0x05 ≤ (opcField w).toNat :=
  ⟨keyed.offer 0x05000000 [], 0x05000000, rfl, by decide⟩

theorem witness_StepWaitsForHost : keyed.pending = [] := rfl

/-- Each code of R178 is reached, and so is acceptance, at requests where the checks meet. -/
theorem witness_AdmissionCheckOrder :
    (∃ (s : State), s.pending = [.command 0x04100000 []] ∧ admission 0x04100000 [] s.keyed = none) ∧
    admission 0x05000000 [] true = some .errOpcode ∧ admission 0x01010010 k128 true = some .errField ∧
    admission 0x04000001 [0] false = some .errField ∧ admission 0x0200000f [] true = some .errPayload ∧
    admission 0x01000000 [] true = some .errKeyLen ∧ admission 0x04110000 [] false = some .errTagLen ∧
    admission 0x04100000 [] false = some .errNoKey := by
  refine ⟨⟨keyed.offer 0x04100000 [], rfl, by decide⟩, ?_⟩
  decide

theorem witness_SetkeyRejections :
    ¬(Instr.setkey128 1 16 k128).WellFormed ∧ ¬(Instr.setkey128 0 16 []).WellFormed ∧
    ¬(Instr.setkey128 0 0 []).WellFormed ∧ ¬(Instr.setkey256 255 32 k256).WellFormed ∧
    ¬(Instr.setkey256 0 32 k128).WellFormed ∧ ¬(Instr.setkey256 0 16 k128).WellFormed := by decide

theorem witness_UpdateRejections :
    ¬(Instr.update 1 0 []).WellFormed ∧ ¬(Instr.update 0 0 [0]).WellFormed ∧ State.reset.keyed = false := by decide

theorem witness_DigestRejections :
    ¬(Instr.digest 16 1 [0]).WellFormed ∧ ¬(Instr.digest 16 0 [0]).WellFormed ∧ ¬(Instr.digest 0 0 []).WellFormed ∧
    ¬(Instr.digest 17 0 []).WellFormed ∧ State.reset.keyed = false := by decide

theorem witness_RejectedCommandsKeepRegisters :
    ∃ (s : State) (evs : List HostEvent), evs ≠ [] ∧
      ∀ e ∈ evs, ∃ w p code, e = .command w p ∧ admission w p s.keyed = some code :=
  ⟨keyed, [.command 0x05000000 []], by decide, by
    intro e he
    exact ⟨0x05000000, [], .errOpcode, by simpa using he, by decide⟩⟩

theorem witness_Setkey128Result : k128.length = 16 := by decide

theorem witness_Setkey256Result : k256.length = 32 := by decide

/-- UPDATE at both ends of IDX, with nothing, with a fill to exactly 16 bytes, and with one byte beyond a full
buffer. -/
theorem witness_UpdateResult :
    (keyed.keyed = true ∧ keyed.idx.toNat ≤ 16 ∧ (keyed.validBytes ++ []).length = 0) ∧
    (keyed.keyed = true ∧ (keyed.validBytes ++ m1.toList).length = 16 ∧ m1.toList.length ≤ 65535) ∧
    (holdsM1.keyed = true ∧ holdsM1.idx.toNat ≤ 16 ∧ (holdsM1.validBytes ++ [0x30]).length = 17) := by decide

theorem witness_UpdateCipherCalls :
    (keyed.keyed = true ∧ keyed.idx.toNat ≤ 16 ∧ keyed.idx.toNat + ([] : List Byte).length = 0) ∧
    (holdsM1.keyed = true ∧ holdsM1.idx.toNat ≤ 16 ∧ holdsM1.idx.toNat + ([0x30] : List Byte).length ≠ 0) := by decide

theorem witness_EmptyUpdateChangesNothing :
    State.reset.keyed = false ∧ keyed.keyed = true ∧
      ∃ t, exec (updateInstr []) keyed = .next t ∧ 1 ≤ (1 : BitVec 8).toNat ∧ (16 : BitVec 8).toNat ≤ 16 :=
  ⟨rfl, rfl, _, rfl, by decide, by decide⟩

/-- DIGEST at IDX 0, 15 and 16, with the shortest and the longest tag. -/
theorem witness_DigestResult :
    (keyed.keyed = true ∧ keyed.idx.toNat = 0 ∧ 1 ≤ (1 : BitVec 8).toNat ∧ (1 : BitVec 8).toNat ≤ 16) ∧
    ({ keyed with idx := 15 } : State).idx.toNat < 16 ∧
    (holdsM1.keyed = true ∧ holdsM1.idx.toNat ≤ 16 ∧ ¬holdsM1.idx.toNat < 16 ∧ 1 ≤ (16 : BitVec 8).toNat ∧ (16 : BitVec 8).toNat ≤ 16) := by
  decide

theorem witness_CommandFrames :
    (∃ t, exec (.setkey128 0 16 k128) keyed = .next t) ∧ (∃ t, exec (.setkey256 0 32 k256) keyed = .next t) ∧
    (∃ t, exec (.update 0 0 []) keyed = .next t) ∧ (∃ t, exec (.digest 16 0 []) keyed = .next t) :=
  ⟨⟨_, rfl⟩, ⟨_, rfl⟩, ⟨_, rfl⟩, ⟨_, rfl⟩⟩

theorem witness_OnlyDigestOutputs :
    (∃ t, (holdsM1.offer 0x04100000 []).pending = [.command 0x04100000 []] ∧
      step (holdsM1.offer 0x04100000 []) = .next t ∧ opcField 0x04100000 = 0x04 ∧ admission 0x04100000 [] true = none) ∧
    ∃ t, step (holdsM1.offer 0x05000000 []) = .next t ∧ admission 0x05000000 [] true ≠ none :=
  ⟨⟨_, rfl, rfl, by decide, by decide⟩, ⟨_, rfl, by decide⟩⟩

theorem witness_CipherCallsPerCommand :
    holdsM1.idx.toNat ≤ 16 ∧ (∃ t, exec (.update 0 1 [0x30]) holdsM1 = .next t) ∧
      ∃ t, exec (.digest 0 0 []) holdsM1 = .next t :=
  ⟨by decide, ⟨_, rfl⟩, ⟨_, rfl⟩⟩

theorem witness_CipherRunsOnlyKeyed :
    (∃ t, step (loaded.offer 0x04010000 []) = .next t ∧ t.encCalls ≠ loaded.encCalls ∧ opcField 0x04010000 = 0x04) ∧
    (∃ t, step (State.reset.offer 0x01000010 k128) = .next t ∧ t.encCalls ≠ State.reset.encCalls) ∧
    ∃ t, step (loaded.offer 0x02000020 k256) = .next t ∧ t.encCalls ≠ loaded.encCalls :=
  ⟨⟨loaded.digestTag 1, rfl, by decide, by decide⟩, ⟨loaded, rfl, by decide⟩,
    ⟨loaded.loadKey .aes256 (key256 k256), rfl, by decide⟩⟩

theorem witness_SetkeyIdempotent :
    ∃ (i j : Instr) (s t u : State), i.WellFormed ∧ j.WellFormed ∧ i.mnemonic = "SETKEY128" ∧
      j.mnemonic = "SETKEY256" ∧ exec i s = .next t ∧ exec j t = .next u ∧ exec i t = .next (t.loadKey .aes128 (key128 k128)) :=
  ⟨.setkey128 0 16 k128, .setkey256 0 32 k256, holdsM1, holdsM1.loadKey .aes128 (key128 k128), _, by decide, by decide,
    by decide, by decide, rfl, rfl, rfl⟩

theorem witness_KeyedFlagRule :
    (∃ t, (State.reset.offer 0x01000010 k128).pending = [.command 0x01000010 k128] ∧
      step (State.reset.offer 0x01000010 k128) = .next t ∧ t.keyed = true) ∧
    (∃ t, step (State.reset.offer 0x04100000 []) = .next t ∧ t.keyed = false) ∧
    (∃ t, step { keyed with pending := [.reset] } = .next t) ∧
    (Instr.update 0 0 []).WellFormed ∧ (Instr.digest 16 0 []).WellFormed ∧ State.reset.keyed = false :=
  ⟨⟨loaded, rfl, rfl, rfl⟩, ⟨_, rfl, rfl⟩, ⟨_, rfl⟩, by decide⟩

theorem witness_TagPrefix : keyed.keyed = true ∧ 1 ≤ (1 : BitVec 8).toNat ∧ (16 : BitVec 8).toNat ≤ 16 := by decide

theorem witness_DigestLeavesFreshKeyLoad :
    ∃ (s t u : State) (tlen : BitVec 8) (i : Instr), s.Inv ∧ s.keyed = true ∧ 1 ≤ tlen.toNat ∧ tlen.toNat ≤ 16 ∧
      i = (match s.csel with
        | .aes128 => .setkey128 0 16 (s.key.toList.take 16)
        | .aes256 => .setkey256 0 32 s.key.toList) ∧
      exec (.digest tlen 0 []) s = .next t ∧ exec i s = .next u :=
  ⟨loaded, loaded.digestTag 16, _, 16, _, loaded_inv, rfl, by decide, by decide, rfl, rfl, rfl⟩

theorem witness_EmptyMessageTag :
    loaded.keyed = true ∧ loaded.HoldsMessage [] ∧ loaded.Inv ∧ 1 ≤ (1 : BitVec 8).toNat ∧
      (16 : BitVec 8).toNat ≤ 16 :=
  ⟨rfl, holds_nil loaded rfl rfl, loaded_inv, by decide, by decide⟩

/-- A message of a whole block, and the empty one. -/
theorem witness_DigestClosedForm :
    (holdsM1.keyed = true ∧ holdsM1.HoldsMessage m1.toList ∧ m1.toList.length = 16) ∧ keyed.HoldsMessage [] :=
  ⟨⟨rfl, holdsM1_message, by decide⟩, holds_nil keyed rfl rfl⟩

theorem witness_MessageStreamInvariant :
    (∃ t, (Instr.setkey128 0 16 k128).WellFormed ∧ exec (.setkey128 0 16 k128) holdsM1 = .next t) ∧
    (∃ t, holdsM1.keyed = true ∧ holdsM1.HoldsMessage m1.toList ∧ [0x30].length ≤ 65535 ∧
      exec (updateInstr [0x30]) holdsM1 = .next t) ∧
    (∃ t, (Instr.digest 1 0 []).WellFormed ∧ (Instr.digest 1 0 []).mnemonic = "DIGEST" ∧ holdsM1.keyed = true ∧
      exec (.digest 1 0 []) holdsM1 = .next t) :=
  ⟨⟨_, by decide, rfl⟩, ⟨_, rfl, holdsM1_message, by decide, rfl⟩, ⟨_, by decide, by decide, rfl, rfl⟩⟩

theorem witness_StreamingEquivalence :
    ∃ (s : State) (ms ns : List (List Byte)), s.keyed = true ∧ s.idx.toNat ≤ 16 ∧ (∀ m ∈ ms, m.length ≤ 65535) ∧
      (∀ n ∈ ns, n.length ≤ 65535) ∧ ms.flatten = ns.flatten ∧ ms ≠ ns :=
  ⟨holdsM1, [[1], [], [2, 3]], [[1, 2, 3]], by decide⟩

theorem witness_StepKeepsInvariant : ∃ s t : State, s.Inv ∧ step s = .next t := ⟨loaded, _, loaded_inv, rfl⟩

/-- Two states that differ in stale bytes and in nothing else. -/
theorem witness_StaleBytesUnobservable :
    ∃ s t : State, s.SameHostView t ∧ s.SameButStale t ∧ s.buf ≠ t.buf :=
  ⟨keyed, { keyed with buf := m1 }, ⟨rfl, rfl⟩, by constructor <;> rfl, by decide⟩

/-- Two unkeyed engines with different keys and selectors in their registers. -/
theorem witness_UnkeyedContentsUnobservable :
    ∃ s t : State, s.LookAlike t ∧ s.keyed = false ∧ s.key ≠ t.key ∧ s.csel ≠ t.csel :=
  ⟨State.reset, { State.reset with csel := .aes256, key := key256 k256 },
    ⟨⟨rfl, rfl⟩, rfl, fun h => absurd h (by decide)⟩, rfl, by decide, by decide⟩

theorem witness_StepRefinesMac :
    ∃ (s : State) (v : MacView) (e : HostEvent) (rest : List HostEvent), s.Shows v ∧ s.pending = e :: rest ∧
      s.keyed = true :=
  ⟨{ loaded with pending := [.command 0x04100000 []] }, _, _, [],
    ⟨loaded_shows.1, loaded_shows.2, loaded_shows.3, loaded_shows.4, loaded_shows.5,
      fun _ => holds_nil _ rfl rfl⟩, rfl, rfl⟩

theorem witness_RunAnswersMac : ∃ (s : State) (v : MacView), s.Shows v ∧ v.context.isSome :=
  ⟨loaded, _, loaded_shows, rfl⟩

theorem witness_Aes128ReadsLowKeyHalf :
    ∃ key key' : KeyMaterial, (∀ (i : Nat) (h : i < 16), key[i] = key'[i]) ∧ key ≠ key' :=
  ⟨key256 k256, key128 (k256.take 16), by decide, by decide⟩

theorem witness_SboxIsAffineInverse : ∃ a : Byte, a ≠ 0 := ⟨1, by decide⟩

/-- Keys of both sizes; word 4 of AES-128 and words 8 and 12 of AES-256 are the first of the Rcon and SubWord cases. -/
theorem witness_KeyScheduleRecurrence :
    k128.length = 4 * 4 ∧ k256.length = 4 * 8 ∧ (4 ≤ 4 ∧ 43 < 4 * (10 + 1)) ∧ (8 ≤ 12 ∧ 12 % 8 = 4 ∧ 59 < 4 * (14 + 1)) := by
  decide

theorem witness_CipherRounds : k128.length = 16 ∧ k256.length = 32 := by decide

end Sys2Proof.Machine.Tests
end

/-! PROOF. The flag KEYED (10_state.md R11): what each command does to it, and what is rejected while it is 0. -/

namespace Sys2Proof.Machine

/-! ### KEYED over the end of a command -/

theorem admitted_keyed_of_kept (s effect : State) (cs : List (Option Status)) (kept : effect.keyed = s.keyed) :
    (s.admitted cs effect).keyed = s.keyed := by
  obtain ⟨_, eq⟩ | ⟨code, _, eq⟩ := admitted_cases s cs effect
  · rw [eq, kept]
  · rw [eq, State.reject_keyed]

theorem admitted_loadKey_keyed (s : State) (cs : List (Option Status)) (c : CipherSel) (key : KeyMaterial) :
    (s.admitted cs (s.loadKey c key)).keyed = true ↔ s.keyed = true ∨ firstFailing cs = none := by
  obtain ⟨pass, eq⟩ | ⟨code, fail, eq⟩ := admitted_cases s cs (s.loadKey c key)
  · simp [eq, pass]
  · simp [eq, fail]

@[simp] theorem State.appendMessage_keyed (s : State) (p : List Byte) : (s.appendMessage p).keyed = s.keyed := by
  unfold State.appendMessage
  dsimp only
  split
  · exact s.fillBuf_keyed p
  · rw [absorbData_eq _ _ _ (by omega)]
    simp only [State.holdTail_keyed, State.absorbBuf_keyed, State.fillBuf_keyed]

/-! ### The check of R178 on a SETKEY request is the check its command makes -/

/-- The code of a SETKEY by its three checks in their order (R81, R82, R178). -/
theorem firstFailing_setkeyChecks (bytes : Nat) (tlen : BitVec 8) (len : BitVec 16) (p : List Byte) :
    firstFailing (setkeyChecks bytes tlen len p) =
      if tlen.toNat ≠ 0 then some .errField
      else if p.length ≠ len.toNat then some .errPayload
      else if len.toNat ≠ bytes then some .errKeyLen
      else none := by
  simp only [setkeyChecks, checkField, checkPayload, checkKeyLen, BitVec.toNat_eq]
  by_cases field : tlen.toNat = 0
  · by_cases payload : p.length = len.toNat
    · by_cases keyLen : len.toNat = bytes
      · simp [field, payload, keyLen]
      · simp [field, payload, keyLen]
    · simp [field, payload]
  · simp [field]

theorem admission_setkey128 (w : BitVec 32) (p : List Byte) (keyed : Bool) (opc : opcField w = 0x01) :
    admission w p keyed = firstFailing (setkeyChecks Config.keyBytes128 (tlenField w) (lenField w) p) := by
  rw [firstFailing_setkeyChecks]
  simp [admission, opc]

theorem admission_setkey256 (w : BitVec 32) (p : List Byte) (keyed : Bool) (opc : opcField w = 0x02) :
    admission w p keyed = firstFailing (setkeyChecks Config.keyBytes256 (tlenField w) (lenField w) p) := by
  rw [firstFailing_setkeyChecks]
  simp [admission, opc]

/-! ### KEYED over a request -/

/-- Only an accepted SETKEY raises KEYED, and no request lowers it (R11). -/
theorem takeCommand_keyed (s t : State) (w : BitVec 32) (p : List Byte) (h : s.takeCommand w p = .next t) :
    t.keyed = true ↔ s.keyed = true ∨ ((opcField w = 0x01 ∨ opcField w = 0x02) ∧ admission w p s.keyed = none) := by
  obtain ⟨opc, dec⟩ | ⟨opc, dec⟩ | ⟨opc, dec⟩ | ⟨opc, dec⟩ | ⟨⟨ne1, ne2, _, _⟩, dec⟩ := decode_cases w p
  · rw [takeCommand_ok s w p _ dec, exec, execSetkey128] at h
    cases h
    rw [admitted_loadKey_keyed, admission_setkey128 w p _ opc]
    simp [opc]
  · rw [takeCommand_ok s w p _ dec, exec, execSetkey256] at h
    cases h
    rw [admitted_loadKey_keyed, admission_setkey256 w p _ opc]
    simp [opc]
  · rw [takeCommand_ok s w p _ dec, exec, execUpdate] at h
    cases h
    rw [admitted_keyed_of_kept _ _ _ (by simp)]
    simp [opc]
  · rw [takeCommand_ok s w p _ dec, exec, execDigest] at h
    cases h
    rw [admitted_keyed_of_kept _ _ _ (by simp)]
    simp [opc]
  · rw [takeCommand_error s w p _ dec] at h
    cases h
    exact ⟨.inl, fun raised => raised.resolve_right fun ⟨setkey, _⟩ => setkey.elim ne1 ne2⟩

/-! ### UPDATE and DIGEST while KEYED = 0 -/

/-- KEYED is the last check of UPDATE, so it is the first to fail on a well-formed one (R178). -/
theorem updateChecks_unkeyed (s : State) (tlen : BitVec 8) (len : BitVec 16) (p : List Byte)
    (unkeyed : s.keyed = false) (wf : (Instr.update tlen len p).WellFormed) :
    firstFailing (updateChecks s tlen len p) = some .errNoKey := by
  simp only [Instr.WellFormed, Instr.wf, Bool.and_eq_true, beq_iff_eq] at wf
  simp [updateChecks, checkField, checkPayload, State.checkKeyed, wf, unkeyed]

/-- KEYED is the last check of DIGEST, so it is the first to fail on a well-formed one (R178). -/
theorem digestChecks_unkeyed (s : State) (tlen : BitVec 8) (len : BitVec 16) (p : List Byte)
    (unkeyed : s.keyed = false) (wf : (Instr.digest tlen len p).WellFormed) :
    firstFailing (digestChecks s tlen len p) = some .errNoKey := by
  simp only [Instr.WellFormed, Instr.wf, Bool.and_eq_true, beq_iff_eq, decide_eq_true_eq] at wf
  simp [digestChecks, checkField, checkPayload, checkTagLen, State.checkKeyed, wf, unkeyed]

theorem exec_unkeyed (s : State) (i : Instr) (unkeyed : s.keyed = false) (wf : i.WellFormed)
    (kind : i.mnemonic = "UPDATE" ∨ i.mnemonic = "DIGEST") : exec i s = .next (s.reject .errNoKey) := by
  cases i with
  | setkey128 tlen len p => simp [Instr.mnemonic] at kind
  | setkey256 tlen len p => simp [Instr.mnemonic] at kind
  | update tlen len p =>
    rw [exec, execUpdate, admitted_reject _ _ _ _ (updateChecks_unkeyed s tlen len p unkeyed wf)]
  | digest tlen len p =>
    rw [exec, execDigest, admitted_reject _ _ _ _ (digestChecks_unkeyed s tlen len p unkeyed wf)]

/-- Settles O32: the flag over each kind of host event, and the rejections of an unkeyed engine. -/
theorem keyedFlagRule : Obligations.KeyedFlagRule := by
  refine ⟨rfl, fun s t e rest offered stepped => ?_, exec_unkeyed⟩
  rw [step_pending_cons s e rest offered] at stepped
  cases e with
  | command w p => exact takeCommand_keyed { s with pending := rest } t w p stepped
  | reset =>
    cases stepped
    exact State.takeReset_keyed _

end Sys2Proof.Machine

/-! PROOF. The response to a request (30_encoding.md R56): its status is the outcome of the check of R178, and its
output is the tag of an accepted DIGEST, or nothing. -/

namespace Sys2Proof.Machine

/-! ### The check of R178 on UPDATE, on DIGEST and on a reserved opcode -/

theorem firstFailing_ite (passes : Prop) [Decidable passes] (code : Status) (rest : List (Option Status)) :
    firstFailing ((if passes then none else some code) :: rest) =
      if passes then firstFailing rest else some code := by
  split
  · exact firstFailing_none rest
  · exact firstFailing_some code rest

theorem admission_update (s : State) (w : BitVec 32) (p : List Byte) (opc : opcField w = 0x03) :
    admission w p s.keyed = firstFailing (updateChecks s (tlenField w) (lenField w) p) := by
  cases keyed : s.keyed <;>
    simp [admission, opc, updateChecks, checkField, checkPayload, State.checkKeyed, keyed, firstFailing_ite,
      BitVec.toNat_eq]

theorem admission_digest (s : State) (w : BitVec 32) (p : List Byte) (opc : opcField w = 0x04) :
    admission w p s.keyed = firstFailing (digestChecks s (tlenField w) (lenField w) p) := by
  have outside : ((tlenField w).toNat < 1 ∨ 16 < (tlenField w).toNat) ↔
      ¬(Config.minTagBytes ≤ (tlenField w).toNat ∧ (tlenField w).toNat ≤ Config.maxTagBytes) := by
    simp only [Config.minTagBytes, Config.maxTagBytes]
    omega
  simp only [admission, outside]
  cases keyed : s.keyed <;>
    simp [opc, digestChecks, checkField, checkPayload, checkTagLen, State.checkKeyed, keyed, firstFailing_ite,
      BitVec.toNat_eq, -not_and]

theorem admission_reserved (w : BitVec 32) (p : List Byte) (keyed : Bool)
    (reserved : opcField w ≠ 1 ∧ opcField w ≠ 2 ∧ opcField w ≠ 3 ∧ opcField w ≠ 4) :
    admission w p keyed = some .errOpcode := by
  simp only [ne_eq, BitVec.toNat_eq] at reserved
  unfold admission
  exact if_pos (by simpa using reserved)

/-- R171: a check that fails never answers OK. -/
theorem admission_ne_ok (w : BitVec 32) (p : List Byte) (keyed : Bool) : admission w p keyed ≠ some .ok := by
  unfold admission
  dsimp only
  split_ifs <;> simp

/-! ### The response itself -/

/-- The response to a request by the outcome of its check: the code of the check that fails, with no output (R170), or
OK with the output of the command (R7). -/
def answerOf (check : Option Status) (out : List Byte) : Response :=
  match check with
  | some code => ⟨code, []⟩
  | none => ⟨.ok, out⟩

/-- The output of the command of a request, were it accepted: the first TLEN bytes of the tag for DIGEST, and nothing
for any other command (R37, R56). -/
def State.outputOf (s : State) (w : BitVec 32) : List Byte :=
  if opcField w = 0x04 then (s.enc (blockXor s.x s.lastBlock)).toList.take (tlenField w).toNat else []

theorem State.outputOf_digest (s : State) (w : BitVec 32) (opc : opcField w = 0x04) :
    s.outputOf w = (s.enc (blockXor s.x s.lastBlock)).toList.take (tlenField w).toNat :=
  if_pos opc

theorem State.outputOf_other (s : State) (w : BitVec 32) (opc : opcField w ≠ 0x04) : s.outputOf w = [] :=
  if_neg opc

theorem State.length_outputOf_le (s : State) (w : BitVec 32) : (s.outputOf w).length ≤ 16 := by
  by_cases opc : opcField w = 0x04
  · simp [s.outputOf_digest w opc]
  · simp [s.outputOf_other w opc]

/-- The tag length an accepted DIGEST asks for is one the check allows, so the output has all its bytes (R176). -/
theorem State.length_outputOf_digest (s : State) (w : BitVec 32) (p : List Byte) (opc : opcField w = 0x04)
    (accepted : admission w p s.keyed = none) : (s.outputOf w).length = (tlenField w).toNat := by
  rw [admission_digest s w p opc, digestChecks_pass] at accepted
  obtain ⟨_, _, ⟨_, tlen_le⟩, _⟩ := accepted
  simpa [s.outputOf_digest w opc] using tlen_le

@[simp] theorem State.appendMessage_responses (s : State) (p : List Byte) :
    (s.appendMessage p).responses = s.responses := by
  unfold State.appendMessage
  dsimp only
  split
  · exact s.fillBuf_responses p
  · rw [absorbData_eq _ _ _ (by omega)]
    simp only [State.holdTail_responses, State.absorbBuf_responses, State.fillBuf_responses]

theorem admitted_responses (s effect : State) (cs : List (Option Status)) (out : List Byte)
    (answers : effect.responses = s.responses ++ [⟨.ok, out⟩]) :
    (s.admitted cs effect).responses = s.responses ++ [answerOf (firstFailing cs) out] := by
  obtain ⟨pass, eq⟩ | ⟨code, fail, eq⟩ := admitted_cases s cs effect
  · rw [eq, pass, answers, answerOf]
  · rw [eq, fail, State.reject_responses, answerOf]

/-- Every request, a reserved opcode among them, is answered once, as the check of R178 on it says (R31, R56). -/
theorem takeCommand_responses (s t : State) (w : BitVec 32) (p : List Byte) (h : s.takeCommand w p = .next t) :
    t.responses = s.responses ++ [answerOf (admission w p s.keyed) (s.outputOf w)] := by
  obtain ⟨opc, dec⟩ | ⟨opc, dec⟩ | ⟨opc, dec⟩ | ⟨opc, dec⟩ | ⟨reserved, dec⟩ := decode_cases w p
  · rw [takeCommand_ok s w p _ dec, exec, execSetkey128] at h
    cases h
    rw [admission_setkey128 w p _ opc, s.outputOf_other w (by simp [opc])]
    exact admitted_responses _ _ _ _ (by simp)
  · rw [takeCommand_ok s w p _ dec, exec, execSetkey256] at h
    cases h
    rw [admission_setkey256 w p _ opc, s.outputOf_other w (by simp [opc])]
    exact admitted_responses _ _ _ _ (by simp)
  · rw [takeCommand_ok s w p _ dec, exec, execUpdate] at h
    cases h
    rw [admission_update s w p opc, s.outputOf_other w (by simp [opc])]
    exact admitted_responses _ _ _ _ (by simp)
  · rw [takeCommand_ok s w p _ dec, exec, execDigest] at h
    cases h
    rw [admission_digest s w p opc, s.outputOf_digest w opc]
    exact admitted_responses _ _ _ _ (by simp)
  · rw [takeCommand_error s w p _ dec] at h
    cases h
    rw [admission_reserved w p _ reserved, State.reject_responses, answerOf]

theorem Status.code_le (a : Status) : a.code.toNat ≤ 6 := by
  cases a <;> decide

theorem Status.code_eq_zero (a : Status) : a.code = 0x00 ↔ a = .ok := by
  cases a <;> decide

/-- Settles O28: the one response of a request, by the outcome of the check on it. -/
theorem onlyDigestOutputs : Obligations.OnlyDigestOutputs := by
  intro s t w p rest offered stepped
  rw [step_pending_cons s _ rest offered] at stepped
  refine ⟨answerOf (admission w p s.keyed) (s.outputOf w),
    takeCommand_responses { s with pending := rest } t w p stepped, Status.code_le _, ?_⟩
  rw [Status.code_eq_zero]
  cases check : admission w p s.keyed with
  | some code =>
    have notOk : code ≠ .ok := fun ok => admission_ne_ok w p s.keyed (by rw [check, ok])
    simp [answerOf, notOk]
  | none =>
    refine ⟨by simp [answerOf], s.length_outputOf_le w, fun output => ⟨?_, rfl⟩,
      fun opc _ => s.length_outputOf_digest w p opc check⟩
    by_contra other
    exact output (s.outputOf_other w other)

end Sys2Proof.Machine

/-! PROOF. The result of an accepted DIGEST (43_digest.md R120, R122): the last block byte by byte, and the state with
the tag answered. -/

namespace Sys2Proof.Machine

/-! ### pad_type and the last block -/

theorem State.padType_partial (s : State) (lt : s.idx.toNat < 16) : s.padType = s.k2 := if_pos lt

theorem State.padType_full (s : State) (ge : 16 ≤ s.idx.toNat) : s.padType = s.k1 := if_neg (Nat.not_lt.mpr ge)

/-- R121 and R122: the padded block masked with K2 while BUF is not full, and BUF masked with K1 where it is. -/
theorem State.getElem_lastBlock (s : State) (j : Nat) (h : j < 16) :
    s.lastBlock[j] =
      if s.idx.toNat < 16 then
        (if j < s.idx.toNat then s.buf[j] else if j = s.idx.toNat then 0x80 else 0x00) ^^^ s.k2[j]
      else s.buf[j] ^^^ s.k1[j] := by
  rw [State.lastBlock, getElem_blockXor]
  split
  next lt => rw [s.padType_partial lt, getElem_blockPad _ _ lt]
  next ge => rw [s.padType_full (Nat.not_lt.mp ge), blockPad_full _ _ (Nat.not_lt.mp ge)]

/-! ### The accepted command -/

/-- A DIGEST with LEN = 0, no payload and TLEN in [1, 16] is accepted while KEYED = 1 (R120, R178). -/
theorem exec_digest_accepted (s : State) (tlen : BitVec 8) (keyed : s.keyed = true) (tlen_ge : 1 ≤ tlen.toNat)
    (tlen_le : tlen.toNat ≤ 16) : exec (.digest tlen 0 []) s = .next (s.digestTag tlen) := by
  have pass : firstFailing (digestChecks s tlen 0 []) = none :=
    (digestChecks_pass s tlen 0 []).mpr ⟨rfl, rfl, ⟨tlen_ge, tlen_le⟩, keyed⟩
  rw [exec, execDigest, admitted_accept _ _ _ pass]

/-- Every field after the tag is answered (R120 steps 3 to 7). -/
theorem State.digestTag_eq (s : State) (tlen : BitVec 8) :
    s.digestTag tlen = { s with
      buf := s.lastBlock, x := Block.zero, idx := 0,
      responses := s.responses ++ [⟨.ok, (s.enc (blockXor s.x s.lastBlock)).toList.take tlen.toNat⟩],
      encCalls := s.encCalls + 1 } := rfl

/-- Settles O26: the last block is BUF padded and masked, and the state is the one with the tag answered. -/
theorem digestResult : Obligations.DigestResult := by
  intro s tlen keyed _ tlen_ge tlen_le
  exact ⟨s.lastBlock, s.getElem_lastBlock,
    by rw [exec_digest_accepted s tlen keyed tlen_ge tlen_le, s.digestTag_eq]⟩

end Sys2Proof.Machine

/-! PROOF. Rejection (60_exceptions.md R170, R172, R178): a request that fails a check changes nothing but the list of
responses, and every request is answered in the step that takes it. -/

namespace Sys2Proof.Machine

/-! ### One request, by the outcome of the check on it -/

/-- R170: the registers and the cipher count stay as they are, whichever command the request holds, or none. -/
theorem takeCommand_rejected (s : State) (w : BitVec 32) (p : List Byte) (code : Status)
    (fail : admission w p s.keyed = some code) : s.takeCommand w p = .next (s.reject code) := by
  obtain ⟨opc, dec⟩ | ⟨opc, dec⟩ | ⟨opc, dec⟩ | ⟨opc, dec⟩ | ⟨reserved, dec⟩ := decode_cases w p
  · rw [admission_setkey128 w p _ opc] at fail
    rw [takeCommand_ok s w p _ dec, exec, execSetkey128, admitted_reject _ _ _ _ fail]
  · rw [admission_setkey256 w p _ opc] at fail
    rw [takeCommand_ok s w p _ dec, exec, execSetkey256, admitted_reject _ _ _ _ fail]
  · rw [admission_update s w p opc] at fail
    rw [takeCommand_ok s w p _ dec, exec, execUpdate, admitted_reject _ _ _ _ fail]
  · rw [admission_digest s w p opc] at fail
    rw [takeCommand_ok s w p _ dec, exec, execDigest, admitted_reject _ _ _ _ fail]
  · rw [admission_reserved w p _ reserved] at fail
    cases fail
    exact takeCommand_error s w p _ dec

theorem exec_gives_next (i : Instr) (s : State) : ∃ t, exec i s = .next t := by
  cases i with
  | setkey128 tlen len p => exact ⟨_, rfl⟩
  | setkey256 tlen len p => exact ⟨_, rfl⟩
  | update tlen len p => exact ⟨_, rfl⟩
  | digest tlen len p => exact ⟨_, rfl⟩

theorem takeCommand_gives_next (s : State) (w : BitVec 32) (p : List Byte) : ∃ t, s.takeCommand w p = .next t := by
  cases dec : decode w p with
  | ok i =>
    rw [takeCommand_ok s w p i dec]
    exact exec_gives_next i s
  | error e => exact ⟨_, takeCommand_error s w p e dec⟩

/-! ### The step -/

theorem step_rejected (s : State) (w : BitVec 32) (p : List Byte) (rest : List HostEvent) (code : Status)
    (offered : s.pending = .command w p :: rest) (fail : admission w p s.keyed = some code) :
    step s = .next { s with pending := rest, responses := s.responses ++ [⟨code, []⟩] } := by
  rw [step_pending_cons s _ rest offered]
  exact takeCommand_rejected { s with pending := rest } w p code fail

/-- Settles O15: a failing check decides the whole next state, and where none fails the response is the one of R56. -/
theorem admissionCheckOrder : Obligations.AdmissionCheckOrder := by
  intro s w p rest offered
  cases check : admission w p s.keyed with
  | some code => exact ⟨_, step_rejected s w p rest code offered check, rfl⟩
  | none =>
    obtain ⟨t, taken⟩ := takeCommand_gives_next { s with pending := rest } w p
    have answered := takeCommand_responses _ t w p taken
    simp only [check, answerOf] at answered
    exact ⟨t, by rw [step_pending_cons s _ rest offered]; exact taken, _, answered⟩

/-- The reserved opcodes by their two ranges (R172) are those of no command (R52). -/
theorem opcode_reserved (opc : BitVec 8) (h : opc = 0x00 ∨ 0x05 ≤ opc.toNat) :
    opc ≠ 1 ∧ opc ≠ 2 ∧ opc ≠ 3 ∧ opc ≠ 4 := by
  bv_omega

/-- Settles O12: the opcode is the first check, so no other field of the request is looked at. -/
theorem reservedOpcodeRejected : Obligations.ReservedOpcodeRejected := by
  intro s w p rest offered reserved
  exact step_rejected s w p rest .errOpcode offered
    (admission_reserved w p s.keyed (opcode_reserved (opcField w) reserved))

end Sys2Proof.Machine

/-! PROOF. The command encoding (30_encoding.md R50 to R58): the decoder and the encoder undo each other, the rows of
the opcode table are rows of fields, and the written lines make the encoded requests. -/

namespace Sys2Proof.Machine

/-! ### Decoder and encoder -/

/-- Settles O1: the fields of the encoded word read back, so the opcode chooses the command's own constructor. -/
theorem decodeOfEncode : Obligations.DecodeOfEncode := by
  intro i
  cases i with
  | setkey128 tlen len p => simp [encode, decode, opcSetkey128]
  | setkey256 tlen len p => simp [encode, decode, opcSetkey128, opcSetkey256]
  | update tlen len p => simp [encode, decode, opcSetkey128, opcSetkey256, opcUpdate]
  | digest tlen len p => simp [encode, decode, opcSetkey128, opcSetkey256, opcUpdate, opcDigest]

/-- A word is the word of its opcode and its other two fields. -/
theorem commandWord_of_opcField (w : BitVec 32) (opc : BitVec 8) (h : opcField w = opc) :
    commandWord opc (tlenField w) (lenField w) = w := by
  rw [← h, commandWord_fields]

/-- Settles O2: the command holds the word's own fields, and they cover the word. -/
theorem encodeOfDecode : Obligations.EncodeOfDecode := by
  intro w p i h
  obtain ⟨opc, dec⟩ | ⟨opc, dec⟩ | ⟨opc, dec⟩ | ⟨opc, dec⟩ | ⟨_, dec⟩ := decode_cases w p
  · cases dec.symm.trans h
    exact congrArg (·, p) (commandWord_of_opcField w _ opc)
  · cases dec.symm.trans h
    exact congrArg (·, p) (commandWord_of_opcField w _ opc)
  · cases dec.symm.trans h
    exact congrArg (·, p) (commandWord_of_opcField w _ opc)
  · cases dec.symm.trans h
    exact congrArg (·, p) (commandWord_of_opcField w _ opc)
  · cases dec.symm.trans h

/-- Settles O3: each word computes to its fields. -/
theorem sampleWordsDecode : Obligations.SampleWordsDecode :=
  fun _ => ⟨rfl, rfl, rfl, rfl, rfl, rfl⟩

/-! ### The field constraints (R53), in the form the checks of the commands have -/

theorem wellFormed_setkey128 (tlen : BitVec 8) (len : BitVec 16) (p : List Byte) :
    (Instr.setkey128 tlen len p).WellFormed ↔ tlen = 0 ∧ p.length = len.toNat ∧ len.toNat = 16 := by
  simp only [Instr.WellFormed, Instr.wf, Config.keyBytes128, Bool.and_eq_true, beq_iff_eq]
  tauto

theorem wellFormed_setkey256 (tlen : BitVec 8) (len : BitVec 16) (p : List Byte) :
    (Instr.setkey256 tlen len p).WellFormed ↔ tlen = 0 ∧ p.length = len.toNat ∧ len.toNat = 32 := by
  simp only [Instr.WellFormed, Instr.wf, Config.keyBytes256, Bool.and_eq_true, beq_iff_eq]
  tauto

theorem wellFormed_update (tlen : BitVec 8) (len : BitVec 16) (p : List Byte) :
    (Instr.update tlen len p).WellFormed ↔ tlen = 0 ∧ p.length = len.toNat := by
  simp [Instr.WellFormed, Instr.wf]

theorem wellFormed_digest (tlen : BitVec 8) (len : BitVec 16) (p : List Byte) :
    (Instr.digest tlen len p).WellFormed ↔
      len = 0 ∧ p.length = len.toNat ∧ 1 ≤ tlen.toNat ∧ tlen.toNat ≤ 16 := by
  simp only [Instr.WellFormed, Instr.wf, Config.minTagBytes, Config.maxTagBytes, Bool.and_eq_true, beq_iff_eq,
    decide_eq_true_eq]
  tauto

/-! ### The rows of the opcode table, field by field (R53) -/

/-- Two words with the same three fields are one word. -/
theorem word_eq_iff (w v : BitVec 32) :
    w = v ↔ opcField w = opcField v ∧ tlenField w = tlenField v ∧ lenField w = lenField v := by
  refine ⟨fun h => h ▸ ⟨rfl, rfl, rfl⟩, fun ⟨opc, tlen, len⟩ => ?_⟩
  rw [← commandWord_fields w, opc, tlen, len, commandWord_fields]

/-- A word lies in a row exactly where each of its three fields matches the row's under the row's mask. -/
theorem matches_iff_fields (r : OpcodeRow) (w : BitVec 32) :
    r.Matches w ↔ opcField w &&& opcField r.mask = opcField r.pattern ∧
      tlenField w &&& tlenField r.mask = tlenField r.pattern ∧
      lenField w &&& lenField r.mask = lenField r.pattern := by
  rw [OpcodeRow.Matches, word_eq_iff]
  simp only [opcField, tlenField, lenField, BitVec.extractLsb'_and]

theorem matches_setkey128 (w : BitVec 32) :
    OpcodeRow.Matches ⟨"SETKEY128", 0x01000010, 0xFFFFFFFF⟩ w ↔
      opcField w = 1 ∧ tlenField w = 0 ∧ lenField w = 16 := by
  rw [matches_iff_fields]
  change opcField w &&& BitVec.allOnes 8 = 1 ∧ tlenField w &&& BitVec.allOnes 8 = 0 ∧
    lenField w &&& BitVec.allOnes 16 = 16 ↔ _
  simp only [BitVec.and_allOnes]

theorem matches_setkey256 (w : BitVec 32) :
    OpcodeRow.Matches ⟨"SETKEY256", 0x02000020, 0xFFFFFFFF⟩ w ↔
      opcField w = 2 ∧ tlenField w = 0 ∧ lenField w = 32 := by
  rw [matches_iff_fields]
  change opcField w &&& BitVec.allOnes 8 = 2 ∧ tlenField w &&& BitVec.allOnes 8 = 0 ∧
    lenField w &&& BitVec.allOnes 16 = 32 ↔ _
  simp only [BitVec.and_allOnes]

theorem matches_update (w : BitVec 32) :
    OpcodeRow.Matches ⟨"UPDATE", 0x03000000, 0xFFFF0000⟩ w ↔ opcField w = 3 ∧ tlenField w = 0 := by
  rw [matches_iff_fields]
  change opcField w &&& BitVec.allOnes 8 = 3 ∧ tlenField w &&& BitVec.allOnes 8 = 0 ∧ lenField w &&& 0#16 = 0#16 ↔ _
  simp only [BitVec.and_allOnes, BitVec.and_zero, and_true]

theorem matches_digest (w : BitVec 32) :
    OpcodeRow.Matches ⟨"DIGEST", 0x04000000, 0xFF00FFFF⟩ w ↔ opcField w = 4 ∧ lenField w = 0 := by
  rw [matches_iff_fields]
  change opcField w &&& BitVec.allOnes 8 = 4 ∧ tlenField w &&& 0#8 = 0#8 ∧ lenField w &&& BitVec.allOnes 16 = 0 ↔ _
  simp only [BitVec.and_allOnes, BitVec.and_zero, true_and]

/-- A statement holds of every row of the table where it holds of the four. -/
theorem forall_mem_opcodeTable (P : OpcodeRow → Prop) :
    (∀ r ∈ opcodeTable, P r) ↔
      P ⟨"SETKEY128", 0x01000010, 0xFFFFFFFF⟩ ∧ P ⟨"SETKEY256", 0x02000020, 0xFFFFFFFF⟩ ∧
        P ⟨"UPDATE", 0x03000000, 0xFFFF0000⟩ ∧ P ⟨"DIGEST", 0x04000000, 0xFF00FFFF⟩ := by
  simp only [opcodeTable, List.forall_mem_cons, List.not_mem_nil, false_imp_iff, implies_true, and_true]

/-- Settles O4: the opcodes of the rows differ, and R53 fixes every field its own row's mask compares. -/
theorem wellFormedWordInItsRow : Obligations.WellFormedWordInItsRow := by
  intro i wf
  rw [forall_mem_opcodeTable, matches_setkey128, matches_setkey256, matches_update, matches_digest]
  cases i with
  | setkey128 tlen len p =>
    obtain ⟨tlen_eq, _, len_eq⟩ := (wellFormed_setkey128 tlen len p).mp wf
    simp [encode, Instr.mnemonic, opcSetkey128, tlen_eq, BitVec.eq_of_toNat_eq (y := 16#16) len_eq]
  | setkey256 tlen len p =>
    obtain ⟨tlen_eq, _, len_eq⟩ := (wellFormed_setkey256 tlen len p).mp wf
    simp [encode, Instr.mnemonic, opcSetkey256, tlen_eq, BitVec.eq_of_toNat_eq (y := 32#16) len_eq]
  | update tlen len p =>
    obtain ⟨tlen_eq, _⟩ := (wellFormed_update tlen len p).mp wf
    simp [encode, Instr.mnemonic, opcUpdate, tlen_eq]
  | digest tlen len p =>
    obtain ⟨len_eq, _⟩ := (wellFormed_digest tlen len p).mp wf
    simp [encode, Instr.mnemonic, opcDigest, len_eq]

/-- Settles O5: every row's mask compares the whole opcode, and the opcode alone chooses the command. -/
theorem rowWordDecodes : Obligations.RowWordDecodes := by
  rw [Obligations.RowWordDecodes, forall_mem_opcodeTable]
  refine ⟨fun w p h => ?_, fun w p h => ?_, fun w p h => ?_, fun w p h => ?_⟩
  · obtain ⟨opc, _⟩ := (matches_setkey128 w).mp h
    exact ⟨.setkey128 (tlenField w) (lenField w) p, by simp [decode, opc, opcSetkey128], rfl⟩
  · obtain ⟨opc, _⟩ := (matches_setkey256 w).mp h
    exact ⟨.setkey256 (tlenField w) (lenField w) p, by simp [decode, opc, opcSetkey128, opcSetkey256], rfl⟩
  · obtain ⟨opc, _⟩ := (matches_update w).mp h
    exact ⟨.update (tlenField w) (lenField w) p, by simp [decode, opc, opcSetkey128, opcSetkey256, opcUpdate], rfl⟩
  · obtain ⟨opc, _⟩ := (matches_digest w).mp h
    exact ⟨.digest (tlenField w) (lenField w) p,
      by simp [decode, opc, opcSetkey128, opcSetkey256, opcUpdate, opcDigest], rfl⟩

/-! ### The written lines (R57, R58) -/

/-- The word `UPDATE <d>` writes is the command word with LEN = n, as long as LEN can hold n. -/
theorem updateWord_eq (n : Nat) (h : n ≤ 65535) :
    0x03000000 ||| BitVec.ofNat 32 n = commandWord opcUpdate 0 (BitVec.ofNat 16 n) := by
  have low : (BitVec.ofNat 16 n).setWidth 32 = BitVec.ofNat 32 n := by
    apply BitVec.eq_of_toNat_eq
    simp only [BitVec.toNat_setWidth, BitVec.toNat_ofNat]
    omega
  rw [commandWord, low]
  rfl

/-- The word `DIGEST <t>` writes is the command word with TLEN = t, as long as TLEN can hold t. -/
theorem digestWord_eq (t : Nat) (h : t < 256) :
    0x04000000 ||| BitVec.ofNat 32 t <<< 16 = commandWord opcDigest (BitVec.ofNat 8 t) 0 := by
  have middle : (BitVec.ofNat 8 t).setWidth 32 = BitVec.ofNat 32 t := by
    apply BitVec.eq_of_toNat_eq
    simp only [BitVec.toNat_setWidth, BitVec.toNat_ofNat]
    omega
  rw [commandWord, middle]
  exact BitVec.or_zero.symm

theorem updateEvent_eq (d : List Byte) (h : d.length ≤ 65535) :
    updateEvent d = .command (encode (updateInstr d)).1 (encode (updateInstr d)).2 :=
  congrArg (HostEvent.command · d) (updateWord_eq d.length h)

/-- Settles O6: the words of the lines are the command words of the encoder. -/
theorem assemblerLinesEncode : Obligations.AssemblerLinesEncode :=
  ⟨fun _ _ => rfl, fun _ _ => rfl, updateEvent_eq,
    fun t h => congrArg (HostEvent.command · []) (digestWord_eq t h)⟩

/-- The canonical split of a message: its chunks join to it, none is empty or too long for an UPDATE, and each but the
last is as long as an UPDATE can be. -/
theorem messageChunks_spec (n : Nat) (m : List Byte) (enough : m.length ≤ n) :
    (messageChunks n m).flatten = m ∧ (∀ c ∈ messageChunks n m, 0 < c.length ∧ c.length ≤ 65535) ∧
      ∀ c ∈ (messageChunks n m).dropLast, c.length = 65535 := by
  induction n generalizing m with
  | zero =>
    obtain rfl : m = [] := List.eq_nil_of_length_eq_zero (by omega)
    simp [messageChunks]
  | succ n ih =>
    by_cases empty : m = []
    · simp [messageChunks, empty]
    have pos : 0 < m.length := List.length_pos_iff.mpr empty
    obtain ⟨joined, sizes, full⟩ := ih (m.drop 65535) (by rw [List.length_drop]; omega)
    have unfolded : messageChunks (n + 1) m = m.take 65535 :: messageChunks n (m.drop 65535) := by
      rw [messageChunks, if_neg (by simpa using empty)]
    rw [unfolded]
    refine ⟨by rw [List.flatten_cons, joined, List.take_append_drop], ?_, ?_⟩
    · rw [List.forall_mem_cons]
      exact ⟨by rw [List.length_take]; omega, sizes⟩
    · by_cases last : messageChunks n (m.drop 65535) = []
      · simp [last]
      · -- a chunk follows, so the message goes on past the first 65535 bytes
        have more : 65535 < m.length := by
          by_contra short
          rw [List.drop_eq_nil_of_le (by omega)] at last
          exact last (by cases n <;> simp [messageChunks])
        rw [List.dropLast_cons_of_ne_nil last, List.forall_mem_cons]
        exact ⟨by rw [List.length_take]; omega, full⟩

/-- Settles O7: the chunks are those of the canonical split, with the message's length as its bound. -/
theorem updateStarSplitsMessage : Obligations.UpdateStarSplitsMessage := by
  refine ⟨rfl, fun m nonempty => ⟨messageChunks m.length m, ?_, messageChunks_spec m.length m (le_refl _)⟩⟩
  rw [updateStarEvents, if_neg (by simpa using nonempty)]

end Sys2Proof.Machine

/-! PROOF. The two ways a command ends (60_exceptions.md R170, R178, R180): accepted with its effect, or rejected with
nothing changed but the list of responses; and the steps that take no command at all. -/

namespace Sys2Proof.Machine

/-! ### The checks and the effect of a command, for all four at once -/

/-- The checks a command makes, in their order (R178). -/
def State.checks (s : State) : Instr → List (Option Status)
  | .setkey128 tlen len p => setkeyChecks Config.keyBytes128 tlen len p
  | .setkey256 tlen len p => setkeyChecks Config.keyBytes256 tlen len p
  | .update tlen len p => updateChecks s tlen len p
  | .digest tlen len p => digestChecks s tlen len p

/-- What a command does once its checks pass (R81, R82, R100, R120). -/
def State.effect (s : State) : Instr → State
  | .setkey128 _ _ p => s.loadKey .aes128 (key128 p)
  | .setkey256 _ _ p => s.loadKey .aes256 (key256 p)
  | .update _ _ p => (s.appendMessage p).respond []
  | .digest tlen _ _ => s.digestTag tlen

@[simp] theorem State.effect_setkey128 (s : State) (tlen : BitVec 8) (len : BitVec 16) (p : List Byte) :
    s.effect (.setkey128 tlen len p) = s.loadKey .aes128 (key128 p) := rfl
@[simp] theorem State.effect_setkey256 (s : State) (tlen : BitVec 8) (len : BitVec 16) (p : List Byte) :
    s.effect (.setkey256 tlen len p) = s.loadKey .aes256 (key256 p) := rfl
@[simp] theorem State.effect_update (s : State) (tlen : BitVec 8) (len : BitVec 16) (p : List Byte) :
    s.effect (.update tlen len p) = (s.appendMessage p).respond [] := rfl
@[simp] theorem State.effect_digest (s : State) (tlen : BitVec 8) (len : BitVec 16) (p : List Byte) :
    s.effect (.digest tlen len p) = s.digestTag tlen := rfl

theorem exec_eq (s : State) (i : Instr) : exec i s = .next (s.admitted (s.checks i) (s.effect i)) := by
  cases i with
  | setkey128 tlen len p => rfl
  | setkey256 tlen len p => rfl
  | update tlen len p => rfl
  | digest tlen len p => rfl

/-- The commands that load no key, and that an engine without a key rejects (R11, R177). -/
abbrev UsesKey (i : Instr) : Prop := i.mnemonic = "UPDATE" ∨ i.mnemonic = "DIGEST"

/-- A command is accepted where it meets R53 and a key is loaded, if it uses one (R53, R177). -/
def State.Accepts (s : State) (i : Instr) : Prop := i.WellFormed ∧ (UsesKey i → s.keyed = true)

theorem State.accepts_setkey128 (s : State) (tlen : BitVec 8) (len : BitVec 16) (p : List Byte) :
    s.Accepts (.setkey128 tlen len p) ↔ tlen = 0 ∧ p.length = len.toNat ∧ len.toNat = 16 := by
  simp [State.Accepts, wellFormed_setkey128, UsesKey, Instr.mnemonic]

theorem State.accepts_setkey256 (s : State) (tlen : BitVec 8) (len : BitVec 16) (p : List Byte) :
    s.Accepts (.setkey256 tlen len p) ↔ tlen = 0 ∧ p.length = len.toNat ∧ len.toNat = 32 := by
  simp [State.Accepts, wellFormed_setkey256, UsesKey, Instr.mnemonic]

theorem State.accepts_update (s : State) (tlen : BitVec 8) (len : BitVec 16) (p : List Byte) :
    s.Accepts (.update tlen len p) ↔ tlen = 0 ∧ p.length = len.toNat ∧ s.keyed = true := by
  simp [State.Accepts, wellFormed_update, UsesKey, Instr.mnemonic, and_assoc]

theorem State.accepts_digest (s : State) (tlen : BitVec 8) (len : BitVec 16) (p : List Byte) :
    s.Accepts (.digest tlen len p) ↔
      len = 0 ∧ p.length = len.toNat ∧ (1 ≤ tlen.toNat ∧ tlen.toNat ≤ 16) ∧ s.keyed = true := by
  simp [State.Accepts, wellFormed_digest, UsesKey, Instr.mnemonic, and_assoc]

theorem firstFailing_checks_eq_none (s : State) (i : Instr) : firstFailing (s.checks i) = none ↔ s.Accepts i := by
  cases i with
  | setkey128 tlen len p => exact (setkeyChecks_pass _ tlen len p).trans (s.accepts_setkey128 tlen len p).symm
  | setkey256 tlen len p => exact (setkeyChecks_pass _ tlen len p).trans (s.accepts_setkey256 tlen len p).symm
  | update tlen len p => exact (updateChecks_pass s tlen len p).trans (s.accepts_update tlen len p).symm
  | digest tlen len p => exact (digestChecks_pass s tlen len p).trans (s.accepts_digest tlen len p).symm

/-- The check of R178 on a request is the check its command makes. -/
theorem admission_of_decode (s : State) (w : BitVec 32) (p : List Byte) (i : Instr) (h : decode w p = .ok i) :
    admission w p s.keyed = firstFailing (s.checks i) := by
  obtain ⟨opc, dec⟩ | ⟨opc, dec⟩ | ⟨opc, dec⟩ | ⟨opc, dec⟩ | ⟨_, dec⟩ := decode_cases w p
  · cases dec.symm.trans h
    exact admission_setkey128 w p s.keyed opc
  · cases dec.symm.trans h
    exact admission_setkey256 w p s.keyed opc
  · cases dec.symm.trans h
    exact admission_update s w p opc
  · cases dec.symm.trans h
    exact admission_digest s w p opc
  · cases dec.symm.trans h

/-- No check fails with OK (R171). -/
theorem firstFailing_checks_ne_ok (s : State) (i : Instr) : firstFailing (s.checks i) ≠ some .ok := by
  rw [← admission_of_decode s _ _ i (decodeOfEncode i)]
  exact admission_ne_ok _ _ _

/-! ### What a command can do -/

theorem exec_accepted (s : State) (i : Instr) (h : s.Accepts i) : exec i s = .next (s.effect i) := by
  rw [exec_eq, admitted_accept _ _ _ ((firstFailing_checks_eq_none s i).mpr h)]

/-- A command is accepted with its effect, or rejected with a code that is not OK. -/
theorem exec_cases (s t : State) (i : Instr) (h : exec i s = .next t) :
    (s.Accepts i ∧ t = s.effect i) ∨ (¬s.Accepts i ∧ ∃ code, code ≠ .ok ∧ t = s.reject code) := by
  rw [exec_eq] at h
  cases h
  rw [← firstFailing_checks_eq_none]
  obtain ⟨pass, eq⟩ | ⟨code, fail, eq⟩ := admitted_cases s (s.checks i) (s.effect i)
  · exact .inl ⟨pass, eq⟩
  · refine .inr ⟨by simp [fail], code, ?_, eq⟩
    rintro rfl
    exact firstFailing_checks_ne_ok s i fail

/-- A request that passes every check of R178 is the request of a command, which is accepted. -/
theorem takeCommand_accepted (s : State) (w : BitVec 32) (p : List Byte) (pass : admission w p s.keyed = none) :
    ∃ i, decode w p = .ok i ∧ s.Accepts i ∧ s.takeCommand w p = .next (s.effect i) := by
  cases dec : decode w p with
  | ok i =>
    have accepted : s.Accepts i := by
      rwa [admission_of_decode s w p i dec, firstFailing_checks_eq_none] at pass
    exact ⟨i, rfl, accepted, by rw [takeCommand_ok s w p i dec, exec_accepted s i accepted]⟩
  | error e =>
    obtain ⟨_, h⟩ | ⟨_, h⟩ | ⟨_, h⟩ | ⟨_, h⟩ | ⟨reserved, _⟩ := decode_cases w p
    · cases dec.symm.trans h
    · cases dec.symm.trans h
    · cases dec.symm.trans h
    · cases dec.symm.trans h
    · cases (admission_reserved w p s.keyed reserved).symm.trans pass

/-- A request is accepted with the effect of its command, or rejected with a code that is not OK. -/
theorem takeCommand_cases (s t : State) (w : BitVec 32) (p : List Byte) (h : s.takeCommand w p = .next t) :
    (∃ i, decode w p = .ok i ∧ s.Accepts i ∧ t = s.effect i) ∨
      ∃ code, admission w p s.keyed = some code ∧ code ≠ .ok ∧ t = s.reject code := by
  cases check : admission w p s.keyed with
  | none =>
    obtain ⟨i, dec, accepted, taken⟩ := takeCommand_accepted s w p check
    cases taken.symm.trans h
    exact .inl ⟨i, dec, accepted, rfl⟩
  | some code =>
    cases (takeCommand_rejected s w p code check).symm.trans h
    exact .inr ⟨code, rfl, fun ok => admission_ne_ok w p s.keyed (by rw [check, ok]), rfl⟩

theorem takeEvent_gives_next (s : State) (e : HostEvent) : ∃ t, s.takeEvent e = .next t := by
  cases e with
  | command w p => exact takeCommand_gives_next s w p
  | reset => exact ⟨_, rfl⟩

/-! ### Reset, and the steps by the host's next event -/

/-- Settles O8: reset holds these values. -/
theorem resetRegisters : Obligations.ResetRegisters := ⟨rfl, rfl, rfl, rfl, rfl, rfl⟩

/-- Settles O9: the step is the reset of the registers alone. -/
theorem resetInputWritesRegisters : Obligations.ResetInputWritesRegisters := by
  intro s rest offered
  exact ⟨State.takeReset { s with pending := rest }, step_pending_cons s _ rest offered,
    rfl, rfl, rfl, rfl, rfl, rfl, rfl, rfl, rfl⟩

/-- Settles O10: the step takes the request, and the request runs its command. -/
theorem stepRunsDecodedCommand : Obligations.StepRunsDecodedCommand := by
  intro s w p rest i offered dec
  rw [step_pending_cons s _ rest offered]
  exact takeCommand_ok _ w p i dec

/-- Settles O11: the placed word is the host's next request, and its payload that of the table word. -/
theorem placedWordRunsNext : Obligations.PlacedWordRunsNext := by
  intro s nbits w i dec
  have decoded : decode (tableWord nbits w) (tablePayload nbits w) = .ok i := by
    rw [decodeTableWord] at dec
    cases h : decode (tableWord nbits w) (tablePayload nbits w) with
    | ok j => rw [h] at dec; cases dec; rfl
    | error e => rw [h] at dec; cases dec
  rw [State.withFetchWord, step_offer, takeCommand_ok s _ _ i decoded]

/-- Settles O13: with no host event the step is the waiting one. -/
theorem stepWaitsForHost : Obligations.StepWaitsForHost := step_pending_nil

/-- Settles O14: waiting, taking a request and taking a reset each answer a next state. -/
theorem everyStepGivesNextState : Obligations.EveryStepGivesNextState := by
  intro s
  cases offered : s.pending with
  | nil => exact ⟨s, step_pending_nil s offered⟩
  | cons e rest =>
    rw [step_pending_cons s e rest offered]
    exact takeEvent_gives_next _ e

/-- Settles O16: the table is that of the codes. -/
theorem statusCodeTable : Obligations.StatusCodeTable :=
  ⟨rfl, rfl, rfl, rfl, rfl, rfl, rfl, Status.code_le⟩

/-! ### Rejections by command -/

/-- A command whose checks fail with a code is rejected with it. -/
theorem exec_rejected (s : State) (i : Instr) (code : Status) (h : firstFailing (s.checks i) = some code) :
    exec i s = .next { s with responses := s.responses ++ [⟨code, []⟩] } := by
  rw [exec_eq, admitted_reject _ _ _ _ h, State.reject]

/-- A SETKEY that breaks R53 fails with the first of its three codes whose check does not pass. -/
theorem firstFailing_setkeyChecks_broken (bytes : Nat) (tlen : BitVec 8) (len : BitVec 16) (p : List Byte)
    (broken : ¬(tlen = 0 ∧ p.length = len.toNat ∧ len.toNat = bytes)) :
    firstFailing (setkeyChecks bytes tlen len p) =
      some (if tlen ≠ 0 then .errField else if p.length ≠ len.toNat then .errPayload else .errKeyLen) := by
  simp only [setkeyChecks, checkField, checkPayload, checkKeyLen, firstFailing_ite]
  by_cases field : tlen = 0
  · by_cases payload : p.length = len.toNat
    · have keyLen : len.toNat ≠ bytes := fun eq => broken ⟨field, payload, eq⟩
      simp [field, payload, keyLen]
    · simp [field, payload]
  · rw [if_neg field, if_pos field]

/-- Settles O17: the two commands make the same three checks, for different key lengths. -/
theorem setkeyRejections : Obligations.SetkeyRejections := by
  intro s tlen len p
  refine ⟨fun broken => ?_, fun broken => ?_⟩
  · rw [wellFormed_setkey128] at broken
    exact exec_rejected s _ _ (firstFailing_setkeyChecks_broken 16 tlen len p broken)
  · rw [wellFormed_setkey256] at broken
    exact exec_rejected s _ _ (firstFailing_setkeyChecks_broken 32 tlen len p broken)

/-- Settles O18: where the field and the payload are right, the key is what is missing. -/
theorem updateRejections : Obligations.UpdateRejections := by
  intro s tlen len p broken
  refine exec_rejected s _ _ ?_
  simp only [State.checks, updateChecks, checkField, checkPayload, State.checkKeyed, firstFailing_ite]
  by_cases field : tlen = 0
  · by_cases payload : p.length = len.toNat
    · have unkeyed : s.keyed = false :=
        broken.resolve_left (not_not_intro ((wellFormed_update tlen len p).mpr ⟨field, payload⟩))
      simp [field, payload, unkeyed]
    · simp [field, payload]
  · rw [if_neg field, if_pos field]

/-- The range check on TLEN fails exactly on 0 and above 16 (R176). -/
theorem tagLength_outside (tlen : BitVec 8) :
    ¬(Config.minTagBytes ≤ tlen.toNat ∧ tlen.toNat ≤ Config.maxTagBytes) ↔ tlen = 0 ∨ 16 < tlen.toNat := by
  simp only [Config.minTagBytes, Config.maxTagBytes]
  bv_omega

/-- Settles O19: where the field, the payload and the tag length are right, the key is what is missing. -/
theorem digestRejections : Obligations.DigestRejections := by
  intro s tlen len p broken
  refine exec_rejected s _ _ ?_
  simp only [State.checks, digestChecks, checkField, checkPayload, checkTagLen, State.checkKeyed, firstFailing_ite,
    ← tagLength_outside]
  by_cases field : len = 0
  · by_cases payload : p.length = len.toNat
    · by_cases range : Config.minTagBytes ≤ tlen.toNat ∧ tlen.toNat ≤ Config.maxTagBytes
      · have unkeyed : s.keyed = false :=
          broken.resolve_left (not_not_intro ((wellFormed_digest tlen len p).mpr ⟨field, payload, range⟩))
        rw [if_pos field, if_pos payload, if_pos range, if_neg (not_not_intro field),
          if_neg (not_not_intro payload), if_neg (not_not_intro range)]
        simp [unkeyed]
      · rw [if_pos field, if_pos payload, if_neg range, if_neg (not_not_intro field),
          if_neg (not_not_intro payload), if_pos range]
    · rw [if_pos field, if_neg payload, if_neg (not_not_intro field), if_pos payload]
  · rw [if_neg field, if_pos field]

/-! ### Runs -/

theorem run_succ (s t : State) (n : Nat) (h : step s = .next t) :
    Host.Core.run core (n + 1) s = Host.Core.run core n t := by
  have stepped : core.step s = .next t := h
  simp only [Host.Core.run, stepped]

/-- Any number of rejected requests gives responses and changes nothing else (R196). -/
theorem run_rejected (evs rest : List HostEvent) (s : State) (offered : s.pending = evs ++ rest)
    (rejected : ∀ e ∈ evs, ∃ w p code, e = .command w p ∧ admission w p s.keyed = some code) :
    ∃ given, Host.Core.run core evs.length s =
      .next { s with pending := rest, responses := s.responses ++ given } := by
  induction evs generalizing s with
  | nil =>
    obtain rfl : s.pending = rest := offered
    exact ⟨[], by simp [Host.Core.run]⟩
  | cons e evs ih =>
    rw [List.forall_mem_cons] at rejected
    obtain ⟨⟨w, p, code, rfl, fail⟩, later⟩ := rejected
    have stepped := step_rejected s w p (evs ++ rest) code offered fail
    obtain ⟨given, run⟩ := ih { s with pending := evs ++ rest, responses := s.responses ++ [⟨code, []⟩] } rfl later
    exact ⟨⟨code, []⟩ :: given, by rw [List.length_cons, run_succ _ _ _ stepped, run]; simp⟩

/-- Settles O20: the run gives responses and changes nothing else. -/
theorem rejectedCommandsKeepRegisters : Obligations.RejectedCommandsKeepRegisters := by
  intro s evs rest rejected
  obtain ⟨given, run⟩ := run_rejected evs rest { s with pending := evs ++ rest } rfl rejected
  exact ⟨_, run, ⟨rfl, rfl, rfl, rfl, rfl, rfl, rfl, rfl⟩, rfl, rfl⟩

end Sys2Proof.Machine

/-! PROOF. Byte streams (10_state.md R21, 42_update.md R100 to R103): a stream is its whole blocks and the 0 to 16 bytes
held after them, and UPDATE appends to it. -/

namespace Sys2Proof.Machine

/-! ### The held part of a stream, by length -/

theorem heldCount_le (n : Nat) : heldCount n ≤ n := by
  unfold heldCount
  split <;> omega

theorem heldCount_le_16 (n : Nat) : heldCount n ≤ 16 := by
  unfold heldCount
  split <;> omega

theorem heldCount_of_le (n : Nat) (h : n ≤ 16) : heldCount n = n := by
  unfold heldCount
  split <;> omega

theorem heldCount_eq_zero (n : Nat) : heldCount n = 0 ↔ n = 0 := by
  unfold heldCount
  split <;> omega

/-- What is not held is a whole number of blocks. -/
theorem sub_heldCount (n : Nat) : n - heldCount n = 16 * ((n - 1) / 16) := by
  unfold heldCount
  split <;> omega

/-- Whole blocks in front of a stream that is not empty do not change how much of it is held. -/
theorem heldCount_add (k n : Nat) (h : n ≠ 0) : heldCount (16 * k + n) = heldCount n := by
  unfold heldCount
  rw [if_neg h, if_neg (by omega)]
  omega

/-! ### The two parts of a stream -/

/-- The bytes of a stream before its held part (R21). -/
def leadBytes (m : List Byte) : List Byte := m.take (m.length - heldCount m.length)

/-- The held part of a stream: its last 0 to 16 bytes (R21). -/
def heldBytes (m : List Byte) : List Byte := m.drop (m.length - heldCount m.length)

theorem leadBytes_append_heldBytes (m : List Byte) : leadBytes m ++ heldBytes m = m := List.take_append_drop _ _

@[simp] theorem length_heldBytes (m : List Byte) : (heldBytes m).length = heldCount m.length := by
  have := heldCount_le m.length
  rw [heldBytes, List.length_drop]
  omega

@[simp] theorem length_leadBytes (m : List Byte) : (leadBytes m).length = 16 * ((m.length - 1) / 16) := by
  rw [leadBytes, List.length_take, sub_heldCount]
  omega

theorem heldBytes_eq_nil (m : List Byte) : heldBytes m = [] ↔ m = [] := by
  rw [← List.length_eq_zero_iff, length_heldBytes, heldCount_eq_zero, List.length_eq_zero_iff]

theorem leadBytes_of_le (m : List Byte) (h : m.length ≤ 16) : leadBytes m = [] := by
  rw [leadBytes, heldCount_of_le _ h, Nat.sub_self, List.take_zero]

theorem heldBytes_of_le (m : List Byte) (h : m.length ≤ 16) : heldBytes m = m := by
  rw [heldBytes, heldCount_of_le _ h, Nat.sub_self, List.drop_zero]

/-- Whole blocks in front of a stream that is not empty come in front of its whole blocks. -/
theorem leadBytes_blocks_append (l r : List Byte) (k : Nat) (blocks : l.length = 16 * k) (h : r ≠ []) :
    leadBytes (l ++ r) = l ++ leadBytes r := by
  have held := heldCount_add k r.length (by simpa using h)
  have le := heldCount_le r.length
  rw [leadBytes, leadBytes, List.length_append, blocks, held, ← blocks, Nat.add_sub_assoc le,
    List.take_length_add_append]

theorem heldBytes_blocks_append (l r : List Byte) (k : Nat) (blocks : l.length = 16 * k) (h : r ≠ []) :
    heldBytes (l ++ r) = heldBytes r := by
  have parts := leadBytes_append_heldBytes (l ++ r)
  rw [leadBytes_blocks_append l r k blocks h, List.append_assoc, List.append_cancel_left_eq] at parts
  exact List.append_cancel_left (parts.trans (leadBytes_append_heldBytes r).symm)

/-- Appending to a stream adds the whole blocks of the held part and what is appended (R103). -/
theorem leadBytes_append (m d : List Byte) : leadBytes (m ++ d) = leadBytes m ++ leadBytes (heldBytes m ++ d) := by
  by_cases empty : heldBytes m = []
  · rw [(heldBytes_eq_nil m).mp empty]
    rfl
  · rw [← leadBytes_blocks_append _ _ _ (length_leadBytes m) (by simp [empty]), ← List.append_assoc,
      leadBytes_append_heldBytes]

/-- Appending to a stream holds what appending to its held part alone would. -/
theorem heldBytes_append (m d : List Byte) : heldBytes (m ++ d) = heldBytes (heldBytes m ++ d) := by
  by_cases empty : heldBytes m = []
  · rw [empty, (heldBytes_eq_nil m).mp empty]
  · rw [← heldBytes_blocks_append _ _ _ (length_leadBytes m) (by simp [empty] : heldBytes m ++ d ≠ []),
      ← List.append_assoc, leadBytes_append_heldBytes]

/-! ### The whole blocks of a stream, and the chain over them -/

@[simp] theorem wholeBlocks_nil : wholeBlocks [] = [] := rfl

theorem ofBytes_append (l r : List Byte) (h : 16 ≤ l.length) : Block.ofBytes (l ++ r) = Block.ofBytes l := by
  ext i lt : 1
  simp [List.getElem?_append_left (show i < l.length by omega)]

theorem wholeBlocks_block (l : List Byte) (h : l.length = 16) : wholeBlocks l = [Block.ofBytes l] := by
  simp [wholeBlocks, h]

/-- The whole blocks of a stream that starts with whole blocks are those, and then those of the rest. -/
theorem wholeBlocks_append (l r : List Byte) (k : Nat) (blocks : l.length = 16 * k) :
    wholeBlocks (l ++ r) = wholeBlocks l ++ wholeBlocks r := by
  have count : (l ++ r).length / 16 = k + r.length / 16 := by
    rw [List.length_append, blocks]
    omega
  rw [wholeBlocks, wholeBlocks, wholeBlocks, count, List.range_add, List.map_append, List.map_map,
    show l.length / 16 = k by omega]
  refine congrArg₂ (· ++ ·) ?_ ?_
  · refine List.map_congr_left fun j lt => ?_
    rw [List.mem_range] at lt
    rw [List.drop_append_of_le_length (by omega), ofBytes_append _ _ (by rw [List.length_drop]; omega)]
  · refine List.map_congr_left fun j _ => ?_
    rw [Function.comp_apply, Nat.mul_add, ← blocks, List.drop_length_add_append]

@[simp] theorem cbcFrom_nil (E : Block → Block) (x : Block) : cbcFrom E x [] = x := rfl

@[simp] theorem cbcFrom_cons (E : Block → Block) (x b : Block) (bs : List Block) :
    cbcFrom E x (b :: bs) = cbcFrom E (E (blockXor x b)) bs := rfl

theorem cbcFrom_append (E : Block → Block) (x : Block) (bs cs : List Block) :
    cbcFrom E x (bs ++ cs) = cbcFrom E (cbcFrom E x bs) cs := List.foldl_append

/-- The chain over a stream goes on from the chain over its first part, with what was held then (R103). -/
theorem cbcFrom_leadBytes_append (E : Block → Block) (x : Block) (m d : List Byte) :
    cbcFrom E x (wholeBlocks (leadBytes (m ++ d))) =
      cbcFrom E (cbcFrom E x (wholeBlocks (leadBytes m))) (wholeBlocks (leadBytes (heldBytes m ++ d))) := by
  rw [leadBytes_append, wholeBlocks_append _ _ _ (length_leadBytes m), cbcFrom_append]

/-! ### The valid bytes of BUF -/

@[simp] theorem State.length_validBytes (s : State) : s.validBytes.length = min s.idx.toNat 16 := by
  simp [State.validBytes]

theorem State.getElem_validBytes (s : State) (j : Nat) (h : j < s.validBytes.length) :
    s.validBytes[j] = s.buf[j]'(by simp at h; omega) := by
  simp [State.validBytes]

/-- A write behind the valid bytes is a write of the valid bytes and the data from position 0 on. -/
theorem State.blockWrite_idx (s : State) (d : List Byte) :
    blockWrite s.buf s.idx.toNat d = blockWrite s.buf 0 (s.validBytes ++ d) := by
  ext i h : 1
  simp only [getElem_blockWrite, Nat.zero_le, if_true, Nat.sub_zero]
  by_cases before : i < s.idx.toNat
  · have valid : i < s.validBytes.length := by rw [s.length_validBytes]; omega
    rw [if_neg (by omega), List.getElem?_append_left valid, List.getElem?_eq_getElem valid, s.getElem_validBytes,
      Option.getD_some]
  · have count : s.validBytes.length = s.idx.toNat := by rw [s.length_validBytes]; omega
    rw [if_pos (by omega), List.getElem?_append_right (by omega), count]

/-- A write of 16 bytes or more from position 0 on leaves nothing of the Block. -/
theorem blockWrite_whole (b : Block) (d : List Byte) (h : 16 ≤ d.length) : blockWrite b 0 d = Block.ofBytes d := by
  ext i lt : 1
  simp [List.getElem?_eq_getElem (show i < d.length by omega)]

theorem take_blockWrite (b : Block) (d : List Byte) (h : d.length ≤ 16) :
    (blockWrite b 0 d).toList.take d.length = d := by
  refine List.ext_getElem (by simpa using h) fun j lt lt' => ?_
  rw [List.getElem_take, Vector.getElem_toList, blockWrite_inside _ _ _ _ _ (Nat.zero_le j) (by omega)]
  rfl

/-! ### UPDATE on the registers -/

/-- The registers after a stream: its held part is in BUF, over what the fill of BUF left there, and the blocks before
it are absorbed (R100). -/
def State.streamed (s : State) (all : List Byte) : State :=
  { s with
    x := cbcFrom s.enc s.x (wholeBlocks (leadBytes all))
    buf := blockWrite (if all.length ≤ 16 then s.buf else Block.ofBytes all) 0 (heldBytes all)
    idx := BitVec.ofNat 5 (heldCount all.length)
    encCalls := s.encCalls + (all.length - 1) / 16 }

/-- Step 4 absorbs the blocks before the held part of the data. -/
theorem absorbData_length (s : State) (d : List Byte) :
    State.absorbData d.length s d =
      ({ s with
          x := cbcFrom s.enc s.x (wholeBlocks (leadBytes d))
          encCalls := s.encCalls + (d.length - 1) / 16 },
        heldBytes d) := by
  have blocks : wholeBlocks (leadBytes d) =
      (List.range ((d.length - 1) / 16)).map fun j => Block.ofBytes (d.drop (16 * j)) := by
    rw [wholeBlocks, length_leadBytes, Nat.mul_div_cancel_left _ (by omega)]
    refine List.map_congr_left fun j lt => ?_
    rw [List.mem_range] at lt
    have le : 16 * j ≤ (leadBytes d).length := by rw [length_leadBytes]; omega
    conv_rhs => rw [← leadBytes_append_heldBytes d, List.drop_append_of_le_length le]
    rw [ofBytes_append _ _ (by rw [List.length_drop, length_leadBytes]; omega)]
  rw [absorbData_eq _ _ _ (by omega), blocks, heldBytes, sub_heldCount]

@[simp] theorem State.appendMessage_nil (s : State) : s.appendMessage [] = s := by
  simp [State.appendMessage, State.fillBuf, State.fillCount]

theorem State.fillCount_eq (s : State) (p : List Byte) :
    s.fillCount p = min (16 - s.validBytes.length) p.length := by
  rw [s.length_validBytes, State.fillCount, Config.blockBytes]
  omega

/-- A payload that fits into BUF is held there, and nothing is absorbed (R100 steps 1 and 2). -/
theorem State.appendMessage_fits (s : State) (p : List Byte) (fits : s.idx.toNat + p.length ≤ 16) :
    s.appendMessage p = s.streamed (s.validBytes ++ p) := by
  have valid : s.validBytes.length = s.idx.toNat := by rw [s.length_validBytes]; omega
  have all : s.fillCount p = p.length := by rw [s.fillCount_eq]; omega
  have total : s.idx.toNat + p.length = (s.validBytes ++ p).length := by rw [List.length_append, valid]
  rw [total] at fits
  have unfolded : s.appendMessage p = s.fillBuf p := if_pos (by simp [all])
  simp only [unfolded, State.fillBuf, State.streamed, all, List.take_length, s.blockWrite_idx, total, if_pos fits,
    leadBytes_of_le _ fits, heldBytes_of_le _ fits, heldCount_of_le _ fits, wholeBlocks_nil, cbcFrom_nil,
    show ((s.validBytes ++ p).length - 1) / 16 = 0 by omega, Nat.add_zero]

/-- A payload that goes on past BUF fills it, the full BUF is absorbed, and the rest is a stream of its own (R100
steps 3 to 5). -/
theorem State.appendMessage_overflows (s : State) (p : List Byte) (exceeds : 16 < s.validBytes.length + p.length) :
    s.appendMessage p = s.streamed (s.validBytes ++ p) := by
  have valid_le : s.validBytes.length ≤ 16 := by rw [s.length_validBytes]; omega
  have fill : s.fillCount p = 16 - s.validBytes.length := by rw [s.fillCount_eq]; omega
  obtain ⟨d, rest⟩ : ∃ d, p.drop (s.fillCount p) = d := ⟨_, rfl⟩
  obtain ⟨block, front⟩ : ∃ block, s.validBytes ++ p.take (s.fillCount p) = block := ⟨_, rfl⟩
  have parts : s.validBytes ++ p = block ++ d := by rw [← front, ← rest, List.append_assoc, List.take_append_drop]
  have block_length : block.length = 16 := by
    rw [← front, List.length_append, List.length_take]
    omega
  have d_length : d.length ≠ 0 := by
    rw [← rest, List.length_drop]
    omega
  have d_ne : d ≠ [] := by simpa using d_length
  have filled : (s.fillBuf p).buf = Block.ofBytes block := by
    rw [s.fillBuf_buf, s.blockWrite_idx, front, blockWrite_whole _ _ (le_of_eq block_length.symm)]
  have unfolded : s.appendMessage p = (State.absorbData d.length (s.fillBuf p).absorbBuf d).1.holdTail
      (State.absorbData d.length (s.fillBuf p).absorbBuf d).2 := by
    rw [← rest]
    exact if_neg (by rwa [rest, List.isEmpty_iff])
  rw [unfolded, absorbData_length, parts]
  simp only [State.streamed, State.holdTail, leadBytes_blocks_append block d 1 block_length d_ne,
    heldBytes_blocks_append block d 1 block_length d_ne, wholeBlocks_append block _ 1 block_length,
    wholeBlocks_block block block_length, ofBytes_append block d (le_of_eq block_length.symm), List.length_append,
    block_length, heldCount_add 1 _ d_length, show ¬16 + d.length ≤ 16 by omega, if_false,
    show (16 + d.length - 1) / 16 = 1 + (d.length - 1) / 16 by omega]
  simp [-State.fillBuf_buf, filled, Nat.add_assoc]

/-- UPDATE puts the payload behind the valid bytes, from every IDX of 0 to 16, and from the others too where there is a
payload (R100, R101; log entry 6). -/
theorem State.appendMessage_eq (s : State) (p : List Byte) (h : s.idx.toNat ≤ 16 ∨ p ≠ []) :
    s.appendMessage p = s.streamed (s.validBytes ++ p) := by
  by_cases fits : s.idx.toNat + p.length ≤ 16
  · exact s.appendMessage_fits p fits
  · have nonempty : s.idx.toNat ≤ 16 ∨ 0 < p.length := h.imp_right List.length_pos_iff.mpr
    exact s.appendMessage_overflows p (by rw [s.length_validBytes]; omega)

end Sys2Proof.Machine

/-! PROOF. The accepted commands (41_setkey.md R81 to R85, 42_update.md R100 to R104, 43_digest.md R120, R123): what
each leaves, what it never writes, and how often it invokes the cipher. -/

namespace Sys2Proof.Machine

/-! ### SETKEY -/

theorem getElem_key128 (p : List Byte) (i : Nat) (h : i < 32) :
    (key128 p)[i] = if i < 16 then p.getD i 0 else 0 := by
  simp [key128, Config.keyBytes128]

theorem getElem_key256 (p : List Byte) (i : Nat) (h : i < 32) : (key256 p)[i] = p.getD i 0 := by
  simp [key256]

theorem toList_key128 (p : List Byte) (h : p.length = 16) : (key128 p).toList = p ++ List.replicate 16 0 := by
  apply List.ext_getElem
  · rw [Vector.length_toList, List.length_append, h, List.length_replicate]
  intro i lt lt'
  rw [Vector.length_toList] at lt
  rw [Vector.getElem_toList, getElem_key128 p i lt]
  by_cases low : i < 16
  · rw [if_pos low, List.getElem_append_left (by omega), List.getD_eq_getElem _ _ (by omega)]
  · rw [if_neg low, List.getElem_append_right (by omega), List.getElem_replicate]

theorem toList_key256 (p : List Byte) (h : p.length = 32) : (key256 p).toList = p := by
  apply List.ext_getElem
  · rw [Vector.length_toList, h]
  intro i lt lt'
  rw [Vector.length_toList] at lt
  rw [Vector.getElem_toList, getElem_key256 p i lt, List.getD_eq_getElem]

theorem encUnder_key128 (p : List Byte) (h : p.length = 16) : encUnder .aes128 (key128 p) = aes128Encrypt p := by
  funext b
  simp only [encUnder, toList_key128 p h, Config.keyBytes128, ← h, List.take_left']

theorem encUnder_key256 (p : List Byte) (h : p.length = 32) : encUnder .aes256 (key256 p) = aes256Encrypt p := by
  funext b
  rw [encUnder, toList_key256 p h]

/-- Every field after a key is loaded (R81, R82). -/
theorem State.loadKey_eq (s : State) (c : CipherSel) (key : KeyMaterial) :
    s.loadKey c key = { s with
      keyed := true, csel := c, key := key, k1 := mulX (encUnder c key Block.zero),
      k2 := mulX (mulX (encUnder c key Block.zero)), x := Block.zero, idx := 0,
      responses := s.responses ++ [⟨.ok, []⟩], encCalls := s.encCalls + 1 } := rfl

/-- Settles O21: the state is the one with the key loaded, and the cipher reads the payload. -/
theorem setkey128Result : Obligations.Setkey128Result := by
  intro s p length
  have accepted : s.Accepts (.setkey128 0 16 p) := (s.accepts_setkey128 0 16 p).mpr ⟨rfl, length, rfl⟩
  exact ⟨key128 p, toList_key128 p length,
    by rw [exec_accepted _ _ accepted, State.effect_setkey128, State.loadKey_eq, encUnder_key128 p length]⟩

/-- Settles O22: the state is the one with the key loaded, and the cipher reads the payload. -/
theorem setkey256Result : Obligations.Setkey256Result := by
  intro s p length
  have accepted : s.Accepts (.setkey256 0 32 p) := (s.accepts_setkey256 0 32 p).mpr ⟨rfl, length, rfl⟩
  exact ⟨key256 p, toList_key256 p length,
    by rw [exec_accepted _ _ accepted, State.effect_setkey256, State.loadKey_eq, encUnder_key256 p length]⟩

/-- A well-formed SETKEY loads one context, the same from every state. -/
theorem exec_setkey (i : Instr) (wf : i.WellFormed) (kind : i.mnemonic = "SETKEY128" ∨ i.mnemonic = "SETKEY256") :
    ∃ c key, ∀ s, exec i s = .next (s.loadKey c key) := by
  cases i with
  | setkey128 tlen len p =>
    exact ⟨.aes128, key128 p, fun s => exec_accepted s _ ⟨wf, by simp [UsesKey, Instr.mnemonic]⟩⟩
  | setkey256 tlen len p =>
    exact ⟨.aes256, key256 p, fun s => exec_accepted s _ ⟨wf, by simp [UsesKey, Instr.mnemonic]⟩⟩
  | update tlen len p => simp [Instr.mnemonic] at kind
  | digest tlen len p => simp [Instr.mnemonic] at kind

/-- An engine holds the empty message where its buffer and its chain are empty. -/
theorem holdsMessage_nil_iff (s : State) : s.HoldsMessage [] ↔ s.idx = 0 ∧ s.x = Block.zero := by
  constructor
  · rintro ⟨idx, _, chain⟩
    exact ⟨BitVec.eq_of_toNat_eq idx, chain⟩
  · rintro ⟨idx, chain⟩
    exact ⟨by rw [idx]; rfl, by rw [State.validBytes, idx]; rfl, chain⟩

/-- Settles O31: a SETKEY leaves registers that depend on its context alone, but for BUF, which it does not write. -/
theorem setkeyIdempotent : Obligations.SetkeyIdempotent := by
  intro i j s t u wf_i wf_j kind_i kind_j first second
  obtain ⟨c, key, load⟩ := exec_setkey i wf_i kind_i
  obtain ⟨c', key', load'⟩ := exec_setkey j wf_j kind_j
  cases (load s).symm.trans first
  cases (load' _).symm.trans second
  refine ⟨?_, rfl, rfl, (holdsMessage_nil_iff _).mpr ⟨rfl, rfl⟩, (holdsMessage_nil_iff _).mpr ⟨rfl, rfl⟩, ?_⟩
  · rintro rfl
    cases (load s).symm.trans (load' s)
    exact ⟨rfl, rfl, rfl, rfl, rfl, rfl, rfl, rfl⟩
  · intro s' u' again
    cases (load' s').symm.trans again
    exact ⟨rfl, rfl, rfl, rfl⟩

/-! ### UPDATE: what it never writes -/

/-- UPDATE writes X, BUF, IDX and the count, and no other field (R100). -/
theorem State.appendMessage_frame (s : State) (p : List Byte) :
    ∃ x buf idx calls, s.appendMessage p = { s with x := x, buf := buf, idx := idx, encCalls := calls } := by
  by_cases empty : p = []
  · exact ⟨s.x, s.buf, s.idx, s.encCalls, by rw [empty, s.appendMessage_nil]⟩
  · exact ⟨_, _, _, _, s.appendMessage_eq p (.inr empty)⟩

@[simp] theorem State.appendMessage_csel (s : State) (p : List Byte) : (s.appendMessage p).csel = s.csel := by
  obtain ⟨_, _, _, _, eq⟩ := s.appendMessage_frame p
  rw [eq]

@[simp] theorem State.appendMessage_key (s : State) (p : List Byte) : (s.appendMessage p).key = s.key := by
  obtain ⟨_, _, _, _, eq⟩ := s.appendMessage_frame p
  rw [eq]

@[simp] theorem State.appendMessage_k1 (s : State) (p : List Byte) : (s.appendMessage p).k1 = s.k1 := by
  obtain ⟨_, _, _, _, eq⟩ := s.appendMessage_frame p
  rw [eq]

@[simp] theorem State.appendMessage_k2 (s : State) (p : List Byte) : (s.appendMessage p).k2 = s.k2 := by
  obtain ⟨_, _, _, _, eq⟩ := s.appendMessage_frame p
  rw [eq]

@[simp] theorem State.appendMessage_pending (s : State) (p : List Byte) :
    (s.appendMessage p).pending = s.pending := by
  obtain ⟨_, _, _, _, eq⟩ := s.appendMessage_frame p
  rw [eq]

@[simp] theorem State.appendMessage_enc (s : State) (p : List Byte) : (s.appendMessage p).enc = s.enc := by
  obtain ⟨_, _, _, _, eq⟩ := s.appendMessage_frame p
  rw [eq]
  rfl

/-- Settles O27: a rejection writes responses alone, and the effect of each command keeps these fields. -/
theorem commandFrames : Obligations.CommandFrames := by
  intro i s t executed
  obtain ⟨_, rfl⟩ | ⟨_, code, _, rfl⟩ := exec_cases s t i executed
  · cases i with
    | setkey128 tlen len p => simp [Instr.mnemonic]
    | setkey256 tlen len p => simp [Instr.mnemonic]
    | update tlen len p => simp [Instr.mnemonic]
    | digest tlen len p => simp [Instr.mnemonic]
  · exact ⟨rfl, fun _ => rfl, fun _ => ⟨rfl, rfl, rfl, rfl, rfl⟩⟩

/-! ### UPDATE: what it leaves -/

@[simp] theorem State.streamed_x (s : State) (all : List Byte) :
    (s.streamed all).x = cbcFrom s.enc s.x (wholeBlocks (leadBytes all)) := rfl

@[simp] theorem State.streamed_encCalls (s : State) (all : List Byte) :
    (s.streamed all).encCalls = s.encCalls + (all.length - 1) / 16 := rfl

@[simp] theorem State.toNat_streamed_idx (s : State) (all : List Byte) :
    (s.streamed all).idx.toNat = heldCount all.length := by
  have := heldCount_le_16 all.length
  exact Nat.mod_eq_of_lt (by omega)

@[simp] theorem State.streamed_validBytes (s : State) (all : List Byte) :
    (s.streamed all).validBytes = heldBytes all := by
  have le : (heldBytes all).length ≤ 16 := by rw [length_heldBytes]; exact heldCount_le_16 _
  rw [State.validBytes, s.toNat_streamed_idx, ← length_heldBytes]
  exact take_blockWrite _ _ le

/-- The stale bytes after a stream: those that were there, or the last bytes the fill of BUF left (R17, R100). -/
theorem State.getElem_streamed_buf (s : State) (all : List Byte) (j : Nat) (h : j < 16)
    (stale : heldCount all.length ≤ j) :
    (s.streamed all).buf[j] = if all.length ≤ 16 then s.buf[j] else all.getD j 0 := by
  have kept : (s.streamed all).buf[j] = (if all.length ≤ 16 then s.buf else Block.ofBytes all)[j] :=
    blockWrite_after _ _ _ _ h (by rw [length_heldBytes]; omega)
  rw [kept]
  split
  · rfl
  · exact getElem_ofBytes all j h

theorem accepts_updateInstr (s : State) (p : List Byte) (keyed : s.keyed = true) (le : p.length ≤ 65535) :
    s.Accepts (updateInstr p) := by
  refine (s.accepts_update _ _ _).mpr ⟨rfl, ?_, keyed⟩
  rw [BitVec.toNat_ofNat]
  omega

theorem exec_updateInstr (s : State) (p : List Byte) (keyed : s.keyed = true) (le : p.length ≤ 65535) :
    exec (updateInstr p) s = .next ((s.appendMessage p).respond []) :=
  exec_accepted s _ (accepts_updateInstr s p keyed le)

/-- Settles O23: the registers are those after the stream of the valid bytes and the payload. -/
theorem updateResult : Obligations.UpdateResult := by
  intro s p keyed idx_le length_le
  refine ⟨_, exec_updateInstr s p keyed length_le, ?_⟩
  rw [s.appendMessage_eq p (.inl idx_le)]
  exact ⟨s.toNat_streamed_idx _, s.streamed_validBytes _, s.streamed_x _, s.getElem_streamed_buf _,
    rfl, rfl, rfl, rfl, rfl, rfl, rfl⟩

/-! ### The number of cipher invocations (R102, R197) -/

/-- R102's count is the number of blocks before the held part. -/
theorem updateCalls_eq (i0 n : Nat) : updateCalls i0 n = (i0 + n - 1) / 16 := by
  unfold updateCalls
  split <;> omega

theorem State.length_stream (s : State) (p : List Byte) (h : s.idx.toNat ≤ 16) :
    (s.validBytes ++ p).length = s.idx.toNat + p.length := by
  rw [List.length_append, s.length_validBytes, min_eq_left h]

theorem State.appendMessage_encCalls (s : State) (p : List Byte) (h : s.idx.toNat ≤ 16) :
    (s.appendMessage p).encCalls = s.encCalls + updateCalls s.idx.toNat p.length := by
  rw [s.appendMessage_eq p (.inl h), s.streamed_encCalls, s.length_stream p h, updateCalls_eq]

theorem State.toNat_appendMessage_idx (s : State) (p : List Byte) (h : s.idx.toNat ≤ 16) :
    (s.appendMessage p).idx.toNat = heldCount (s.idx.toNat + p.length) := by
  rw [s.appendMessage_eq p (.inl h), s.toNat_streamed_idx, s.length_stream p h]

/-- Settles O24: the blocks before the held part are what the cipher is invoked on. -/
theorem updateCipherCalls : Obligations.UpdateCipherCalls := by
  refine ⟨fun s p keyed idx_le length_le => ⟨_, exec_updateInstr s p keyed length_le,
    s.appendMessage_encCalls p idx_le, fun nonempty => ?_⟩, rfl, rfl, rfl, rfl, rfl⟩
  have idx : ((s.appendMessage p).respond []).idx.toNat = (s.idx.toNat + p.length - 1) % 16 + 1 := by
    rw [State.respond_idx, s.toNat_appendMessage_idx p idx_le, heldCount, if_neg nonempty]
  refine ⟨idx, ?_⟩
  rw [idx, updateCalls_eq]
  omega

/-- Settles O29: a rejection counts nothing, and each effect counts its invocations. -/
theorem cipherCallsPerCommand : Obligations.CipherCallsPerCommand := by
  intro i s t idx_le executed
  obtain ⟨accepted, rfl⟩ | ⟨_, code, notOk, rfl⟩ := exec_cases s t i executed
  · cases i with
    | setkey128 tlen len p => exact ⟨_, s.loadKey_responses _ _, absurd rfl, fun _ => rfl⟩
    | setkey256 tlen len p => exact ⟨_, s.loadKey_responses _ _, absurd rfl, fun _ => rfl⟩
    | update tlen len p =>
      obtain ⟨_, payload, _⟩ := (s.accepts_update tlen len p).mp accepted
      have bound := len.isLt
      refine ⟨⟨.ok, []⟩, by simp, absurd rfl, fun _ => ⟨s.appendMessage_encCalls p idx_le, ?_, ?_⟩⟩
      · rw [updateCalls_eq]
        omega
      · rw [updateCalls_eq]
        omega
    | digest tlen len p => exact ⟨_, s.digestTag_responses tlen, absurd rfl, fun _ => rfl⟩
  · exact ⟨⟨code, []⟩, rfl, fun _ => rfl, fun ok => absurd ok notOk⟩

/-- Settles O30: only an accepted command counts an invocation, and of those only a SETKEY writes the context. -/
theorem cipherRunsOnlyKeyed : Obligations.CipherRunsOnlyKeyed := by
  intro s t stepped invoked
  cases offered : s.pending with
  | nil =>
    cases (step_pending_nil s offered).symm.trans stepped
    exact absurd rfl invoked
  | cons e rest =>
    rw [step_pending_cons s e rest offered] at stepped
    cases e with
    | reset =>
      cases stepped
      exact absurd rfl invoked
    | command w p =>
      obtain ⟨i, dec, accepted, rfl⟩ | ⟨code, _, _, rfl⟩ := takeCommand_cases _ t w p stepped
      · obtain ⟨opc, h⟩ | ⟨opc, h⟩ | ⟨opc, h⟩ | ⟨opc, h⟩ | ⟨_, h⟩ := decode_cases w p
        · cases h.symm.trans dec
          obtain ⟨_, payload, len⟩ := (State.accepts_setkey128 _ _ _ _).mp accepted
          exact ⟨rfl, w, p, rest, rfl, by
            rw [if_pos opc]
            exact ⟨rfl, toList_key128 p (payload.trans len), rfl, rfl, rfl⟩⟩
        · cases h.symm.trans dec
          obtain ⟨_, payload, len⟩ := (State.accepts_setkey256 _ _ _ _).mp accepted
          exact ⟨rfl, w, p, rest, rfl, by
            rw [if_neg (by simp [opc]), if_pos opc]
            exact ⟨rfl, toList_key256 p (payload.trans len), rfl, rfl, rfl⟩⟩
        · cases h.symm.trans dec
          obtain ⟨_, _, keyed⟩ := (State.accepts_update _ _ _ _).mp accepted
          have kept : s.keyed = true := keyed
          exact ⟨by simp [kept], w, p, rest, rfl, by simp [opc, kept]⟩
        · cases h.symm.trans dec
          obtain ⟨_, _, _, keyed⟩ := (State.accepts_digest _ _ _ _).mp accepted
          have kept : s.keyed = true := keyed
          exact ⟨by simp [kept], w, p, rest, rfl, by simp [opc, kept]⟩
        · cases h.symm.trans dec
      · exact absurd rfl invoked

/-! ### DIGEST and the empty UPDATE -/

/-- Settles O25: an empty payload appends nothing, so the state is the same but for the responses. -/
theorem emptyUpdateChangesNothing : Obligations.EmptyUpdateChangesNothing := by
  have update_nil (s : State) (keyed : s.keyed = true) : exec (updateInstr []) s = .next (s.respond []) := by
    rw [exec_updateInstr s [] keyed (Nat.zero_le _), s.appendMessage_nil]
  refine ⟨fun s unkeyed => exec_unkeyed s _ unkeyed ((wellFormed_update _ _ _).mpr ⟨rfl, rfl⟩) (.inl rfl), update_nil,
    fun s t tlen keyed tlen_ge tlen_le updated => ?_⟩
  cases (update_nil s keyed).symm.trans updated
  exact ⟨_, _, _, exec_digest_accepted s tlen keyed tlen_ge tlen_le,
    exec_digest_accepted (s.respond []) tlen keyed tlen_ge tlen_le, s.digestTag_responses tlen,
    (s.respond []).digestTag_responses tlen⟩

/-- Settles O33: both tags are cut from the same Block, and the cut is all the tag length decides. -/
theorem tagPrefix : Obligations.TagPrefix := by
  intro s tlen keyed tlen_ge tlen_le
  refine ⟨_, _, (s.enc (blockXor s.x s.lastBlock)).toList, exec_digest_accepted s tlen keyed tlen_ge tlen_le,
    exec_digest_accepted s 16 keyed (by decide) (by decide), by simp, ?_, s.digestTag_responses tlen,
    ⟨rfl, rfl, rfl, rfl, rfl, rfl, rfl, rfl⟩⟩
  rw [s.digestTag_responses 16, List.take_of_length_le (by simp)]

end Sys2Proof.Machine

/-! PROOF. The message the engine holds (10_state.md R21 to R24, 42_update.md R103, 43_digest.md R124 to R126): what a
DIGEST makes of it, what UPDATE appends to it, and that neither reads a stale byte of BUF. -/

namespace Sys2Proof.Machine

/-! ### Registers that agree but for stale bytes (R24) -/

theorem State.SameButStale.refl (s : State) : s.SameButStale s := ⟨rfl, rfl, rfl, rfl, rfl, rfl, rfl, rfl⟩

/-- The host's events still to come are no register. -/
theorem withPending_sameButStale (s : State) (evs : List HostEvent) :
    State.SameButStale { s with pending := evs } s := ⟨rfl, rfl, rfl, rfl, rfl, rfl, rfl, rfl⟩

theorem respond_sameButStale (s : State) (out : List Byte) : (s.respond out).SameButStale s :=
  ⟨rfl, rfl, rfl, rfl, rfl, rfl, rfl, rfl⟩

theorem reject_sameButStale (s : State) (code : Status) : (s.reject code).SameButStale s :=
  ⟨rfl, rfl, rfl, rfl, rfl, rfl, rfl, rfl⟩

theorem State.SameButStale.symm {s t : State} (h : s.SameButStale t) : t.SameButStale s where
  keyed_eq := h.keyed_eq.symm
  csel_eq := h.csel_eq.symm
  key_eq := h.key_eq.symm
  k1_eq := h.k1_eq.symm
  k2_eq := h.k2_eq.symm
  x_eq := h.x_eq.symm
  idx_eq := h.idx_eq.symm
  valid_eq := h.valid_eq.symm

theorem State.SameButStale.trans {s t u : State} (h : s.SameButStale t) (h' : t.SameButStale u) :
    s.SameButStale u where
  keyed_eq := h.keyed_eq.trans h'.keyed_eq
  csel_eq := h.csel_eq.trans h'.csel_eq
  key_eq := h.key_eq.trans h'.key_eq
  k1_eq := h.k1_eq.trans h'.k1_eq
  k2_eq := h.k2_eq.trans h'.k2_eq
  x_eq := h.x_eq.trans h'.x_eq
  idx_eq := h.idx_eq.trans h'.idx_eq
  valid_eq := h.valid_eq.trans h'.valid_eq

theorem State.SameButStale.enc_eq {s t : State} (h : s.SameButStale t) : s.enc = t.enc := by
  funext b
  rw [State.enc, State.enc, h.csel_eq, h.key_eq]

theorem State.validBytes_of_idx (s : State) (h : s.idx = 0) : s.validBytes = [] := by
  rw [State.validBytes, h]
  rfl

/-- Loading one key makes any two states agree but for stale bytes. -/
theorem loadKey_sameButStale (s t : State) (c : CipherSel) (key : KeyMaterial) :
    (s.loadKey c key).SameButStale (t.loadKey c key) := ⟨rfl, rfl, rfl, rfl, rfl, rfl, rfl, rfl⟩

/-! ### DIGEST reads the valid bytes alone -/

/-- The last block, written from the valid bytes of BUF (R120 to R122). -/
theorem State.lastBlock_eq (s : State) :
    s.lastBlock = if s.idx.toNat < 16 then
        blockXor (Block.ofBytes (s.validBytes ++ 0x80 :: List.replicate (15 - s.idx.toNat) 0)) s.k2
      else blockXor (Block.ofBytes s.validBytes) s.k1 := by
  ext i h : 1
  rw [s.getElem_lastBlock i h]
  split
  next lt =>
    rw [getElem_blockXor, getElem_ofBytes]
    congr 1
    by_cases before : i < s.idx.toNat
    · have valid : i < s.validBytes.length := by rw [s.length_validBytes]; omega
      rw [if_pos before, List.getD_append _ _ _ _ valid, List.getD_eq_getElem _ _ valid, s.getElem_validBytes]
    · have count : s.validBytes.length = s.idx.toNat := by rw [s.length_validBytes]; omega
      obtain ⟨k, rfl⟩ : ∃ k, i = s.idx.toNat + k := ⟨i - s.idx.toNat, by omega⟩
      rw [if_neg before, List.getD_append_right _ _ _ _ (by omega), count, Nat.add_sub_cancel_left]
      cases k with
      | zero => simp
      | succ k => simp
  next ge =>
    have valid : i < s.validBytes.length := by rw [s.length_validBytes]; omega
    rw [getElem_blockXor, getElem_ofBytes, List.getD_eq_getElem _ _ valid, s.getElem_validBytes]

theorem State.SameButStale.lastBlock_eq {s t : State} (h : s.SameButStale t) : s.lastBlock = t.lastBlock := by
  rw [s.lastBlock_eq, t.lastBlock_eq, h.idx_eq, h.valid_eq, h.k1_eq, h.k2_eq]

/-- The tag block does not depend on stale bytes (R24). -/
theorem State.SameButStale.tag_eq {s t : State} (h : s.SameButStale t) :
    s.enc (blockXor s.x s.lastBlock) = t.enc (blockXor t.x t.lastBlock) := by
  rw [h.enc_eq, h.x_eq, h.lastBlock_eq]

theorem State.SameButStale.digestTag {s t : State} (h : s.SameButStale t) (tlen tlen' : BitVec 8) :
    (s.digestTag tlen).SameButStale (t.digestTag tlen') where
  keyed_eq := by simp only [State.digestTag_keyed, h.keyed_eq]
  csel_eq := by simp only [State.digestTag_csel, h.csel_eq]
  key_eq := by simp only [State.digestTag_key, h.key_eq]
  k1_eq := by simp only [State.digestTag_k1, h.k1_eq]
  k2_eq := by simp only [State.digestTag_k2, h.k2_eq]
  x_eq := by simp only [State.digestTag_x]
  idx_eq := by simp only [State.digestTag_idx]
  valid_eq := by
    rw [State.validBytes_of_idx _ (s.digestTag_idx tlen), State.validBytes_of_idx _ (t.digestTag_idx tlen')]

/-! ### UPDATE reads the valid bytes alone, and appends -/

theorem streamed_idx_congr (s t : State) (all all' : List Byte) (held : heldBytes all = heldBytes all') :
    (s.streamed all).idx = (t.streamed all').idx := by
  apply BitVec.eq_of_toNat_eq
  rw [State.toNat_streamed_idx, State.toNat_streamed_idx, ← length_heldBytes, held, length_heldBytes]

/-- Streams with one held part, over one chain, leave registers that agree but for stale bytes. -/
theorem streamed_sameButStale {s t : State} (h : s.SameButStale t) (all all' : List Byte)
    (chain : cbcFrom s.enc s.x (wholeBlocks (leadBytes all)) = cbcFrom t.enc t.x (wholeBlocks (leadBytes all')))
    (held : heldBytes all = heldBytes all') : (s.streamed all).SameButStale (t.streamed all') where
  keyed_eq := h.keyed_eq
  csel_eq := h.csel_eq
  key_eq := h.key_eq
  k1_eq := h.k1_eq
  k2_eq := h.k2_eq
  x_eq := chain
  idx_eq := streamed_idx_congr s t all all' held
  valid_eq := by rw [State.streamed_validBytes, State.streamed_validBytes, held]

theorem State.SameButStale.appendMessage {s t : State} (h : s.SameButStale t) (p : List Byte) :
    (s.appendMessage p).SameButStale (t.appendMessage p) := by
  by_cases empty : p = []
  · rwa [empty, s.appendMessage_nil, t.appendMessage_nil]
  · rw [s.appendMessage_eq p (.inr empty), t.appendMessage_eq p (.inr empty)]
    exact streamed_sameButStale h _ _ (by rw [h.enc_eq, h.x_eq, h.valid_eq]) (by rw [h.valid_eq])

theorem State.appendMessage_idx_le (s : State) (p : List Byte) (h : s.idx.toNat ≤ 16) :
    (s.appendMessage p).idx.toNat ≤ 16 := by
  rw [s.toNat_appendMessage_idx p h]
  exact heldCount_le_16 _

/-- Two UPDATEs leave what one of the joined payload leaves, but for stale bytes (R103). -/
theorem State.appendMessage_append (s : State) (p q : List Byte) (h : s.idx.toNat ≤ 16) :
    ((s.appendMessage p).appendMessage q).SameButStale (s.appendMessage (p ++ q)) := by
  rw [(s.appendMessage p).appendMessage_eq q (.inl (s.appendMessage_idx_le p h)), s.appendMessage_eq p (.inl h),
    s.appendMessage_eq (p ++ q) (.inl h), s.streamed_validBytes, ← List.append_assoc]
  have chain := cbcFrom_leadBytes_append s.enc s.x (s.validBytes ++ p) q
  have held := heldBytes_append (s.validBytes ++ p) q
  generalize s.validBytes ++ p = m at chain held ⊢
  exact {
    keyed_eq := rfl, csel_eq := rfl, key_eq := rfl, k1_eq := rfl, k2_eq := rfl
    x_eq := chain.symm
    idx_eq := streamed_idx_congr _ s _ _ held.symm
    valid_eq := by rw [State.streamed_validBytes, State.streamed_validBytes, held] }

/-! ### The message held -/

theorem State.SameButStale.holdsMessage {s t : State} (h : s.SameButStale t) {m : List Byte}
    (holds : s.HoldsMessage m) : t.HoldsMessage m where
  idx_eq := by rw [← h.idx_eq, holds.idx_eq]
  valid_eq := by rw [← h.valid_eq, holds.valid_eq]
  chain_eq := by rw [← h.x_eq, ← h.enc_eq, holds.chain_eq]

theorem State.HoldsMessage.idx_le {s : State} {m : List Byte} (h : s.HoldsMessage m) : s.idx.toNat ≤ 16 := by
  rw [h.idx_eq]
  exact heldCount_le_16 _

/-- UPDATE appends its payload to the message held (R21). -/
theorem State.HoldsMessage.appendMessage {s : State} {m : List Byte} (h : s.HoldsMessage m) (p : List Byte) :
    (s.appendMessage p).HoldsMessage (m ++ p) := by
  have valid : s.validBytes = heldBytes m := h.valid_eq
  have chain : s.x = cbcFrom s.enc Block.zero (wholeBlocks (leadBytes m)) := h.chain_eq
  rw [s.appendMessage_eq p (.inl h.idx_le), valid]
  refine ⟨?_, ?_, ?_⟩
  · rw [State.toNat_streamed_idx, ← length_heldBytes, ← heldBytes_append, length_heldBytes]
  · rw [State.streamed_validBytes, ← heldBytes_append]
    rfl
  · rw [State.streamed_x, chain, ← cbcFrom_leadBytes_append]
    rfl

theorem digestTag_holdsMessage (s : State) (tlen : BitVec 8) : (s.digestTag tlen).HoldsMessage [] :=
  (holdsMessage_nil_iff _).mpr ⟨rfl, rfl⟩

theorem loadKey_holdsMessage (s : State) (c : CipherSel) (key : KeyMaterial) : (s.loadKey c key).HoldsMessage [] :=
  (holdsMessage_nil_iff _).mpr ⟨rfl, rfl⟩

/-- Settles O37: the three effects on the message held. -/
theorem messageStreamInvariant : Obligations.MessageStreamInvariant := by
  refine ⟨fun i s t wf kind executed => ?_, fun s t m p keyed holds length_le executed => ?_,
    fun i s t wf kind keyed executed => ?_⟩
  · obtain ⟨c, key, load⟩ := exec_setkey i wf kind
    cases (load s).symm.trans executed
    exact ⟨rfl, loadKey_holdsMessage s c key⟩
  · cases (exec_updateInstr s p keyed length_le).symm.trans executed
    exact ⟨by simp [keyed], (holds.appendMessage p).idx_eq, (holds.appendMessage p).valid_eq,
      (holds.appendMessage p).chain_eq⟩
  · cases (exec_accepted s i ⟨wf, fun _ => keyed⟩).symm.trans executed
    cases i with
    | setkey128 tlen len p => simp [Instr.mnemonic] at kind
    | setkey256 tlen len p => simp [Instr.mnemonic] at kind
    | update tlen len p => simp [Instr.mnemonic] at kind
    | digest tlen len p => exact ⟨keyed, digestTag_holdsMessage s tlen⟩

/-! ### The tag of the message held -/

theorem heldCount_full (n : Nat) (h : 0 < n ∧ n % 16 = 0) : heldCount n = 16 := by
  unfold heldCount
  split <;> omega

theorem heldCount_partial (n : Nat) (h : ¬(0 < n ∧ n % 16 = 0)) : heldCount n = n % 16 := by
  unfold heldCount
  split <;> omega

/-- R125's blocks before the last are R21's before the held part. -/
theorem beforeLast_eq (m : List Byte) : beforeLast m = leadBytes m := by
  rw [beforeLast, leadBytes]
  by_cases full : 0 < m.length ∧ m.length % 16 = 0
  · rw [if_pos full, heldCount_full _ full]
  · rw [if_neg full, heldCount_partial _ full]
    congr 1
    omega

/-- R125's last block is made of R21's held part. -/
theorem lastBlockOf_eq (k1 k2 : Block) (m : List Byte) :
    lastBlockOf k1 k2 m = if heldCount m.length < 16 then
        blockXor (Block.ofBytes (heldBytes m ++ 0x80 :: List.replicate (15 - heldCount m.length) 0)) k2
      else blockXor (Block.ofBytes (heldBytes m)) k1 := by
  rw [lastBlockOf, heldBytes]
  by_cases full : 0 < m.length ∧ m.length % 16 = 0
  · rw [if_pos full, heldCount_full _ full, if_neg (by omega)]
  · rw [if_neg full, heldCount_partial _ full, if_pos (by omega),
      show m.length - m.length % 16 = m.length / 16 * 16 by omega]

/-- The tag block of an engine that holds a message is the closed form over it (R125). -/
theorem State.HoldsMessage.tag_eq {s : State} {m : List Byte} (h : s.HoldsMessage m) :
    s.enc (blockXor s.x s.lastBlock) = cmacFull s.enc s.k1 s.k2 m := by
  have valid : s.validBytes = heldBytes m := h.valid_eq
  have chain : s.x = cbc s.enc (leadBytes m) := h.chain_eq
  rw [cmacFull, beforeLast_eq, lastBlockOf_eq, s.lastBlock_eq, h.idx_eq, valid, chain]

/-- Settles O36: the tag is cut from the tag block of the message held. -/
theorem digestClosedForm : Obligations.DigestClosedForm := by
  intro s m tlen keyed holds tlen_ge tlen_le
  exact ⟨_, exec_digest_accepted s tlen keyed tlen_ge tlen_le, by rw [s.digestTag_responses, holds.tag_eq]⟩

/-- Settles O35: the closed form over no block at all, with the subkey of the context where the invariant gives it. -/
theorem emptyMessageTag : Obligations.EmptyMessageTag := by
  intro s tlen keyed holds tlen_ge tlen_le
  have tag : s.enc (blockXor s.x s.lastBlock) =
      s.enc (blockXor (Block.ofBytes (0x80 :: List.replicate 15 0x00)) s.k2) := by
    rw [holds.tag_eq]
    exact congrArg s.enc (zero_blockXor _)
  refine ⟨_, _, exec_digest_accepted s tlen keyed tlen_ge tlen_le, s.digestTag_responses tlen,
    digestTag_holdsMessage s tlen, by rw [tag], fun inv => ?_⟩
  rw [tag, inv.keyed_k2 keyed, inv.keyed_k1 keyed]
  rfl

theorem key128_take (key : KeyMaterial) (tail : key.toList.drop 16 = List.replicate 16 0) :
    key128 (key.toList.take 16) = key := by
  apply Vector.toList_inj.mp
  rw [toList_key128 _ (by rw [List.length_take, Vector.length_toList]; rfl), ← tail, List.take_append_drop]

theorem key256_toList (key : KeyMaterial) : key256 key.toList = key :=
  Vector.toList_inj.mp (toList_key256 _ key.length_toList)

/-- The SETKEY of the key an engine holds loads just that context again (R13). -/
theorem exec_reload (s : State) (tail : s.csel = .aes128 → s.key.toList.drop 16 = List.replicate 16 0) :
    exec (match s.csel with
      | .aes128 => .setkey128 0 16 (s.key.toList.take 16)
      | .aes256 => .setkey256 0 32 s.key.toList) s = .next (s.loadKey s.csel s.key) := by
  cases sel : s.csel with
  | aes128 =>
    rw [exec_accepted s _ ((s.accepts_setkey128 _ _ _).mpr ⟨rfl, by simp, rfl⟩), State.effect_setkey128,
      key128_take s.key (tail sel)]
  | aes256 =>
    rw [exec_accepted s _ ((s.accepts_setkey256 _ _ _).mpr ⟨rfl, by simp, rfl⟩), State.effect_setkey256, key256_toList]

/-- Settles O34: both leave the empty message under the same key, and the invariant gives the same subkeys. -/
theorem digestLeavesFreshKeyLoad : Obligations.DigestLeavesFreshKeyLoad := by
  rintro s t u tlen i inv keyed tlen_ge tlen_le rfl digested loaded
  cases (exec_digest_accepted s tlen keyed tlen_ge tlen_le).symm.trans digested
  cases (exec_reload s (inv.key_tail keyed)).symm.trans loaded
  exact {
    keyed_eq := keyed, csel_eq := rfl, key_eq := rfl, x_eq := rfl, idx_eq := rfl
    k1_eq := inv.keyed_k1 keyed
    k2_eq := (inv.keyed_k2 keyed).trans (congrArg mulX (inv.keyed_k1 keyed))
    valid_eq := by rw [State.validBytes_of_idx _ rfl, State.validBytes_of_idx _ rfl] }

/-! ### Any split of a byte sequence into UPDATEs -/

theorem takeEvent_updateEvent (s : State) (d : List Byte) (keyed : s.keyed = true) (h : d.length ≤ 65535) :
    s.takeEvent (updateEvent d) = .next ((s.appendMessage d).respond []) := by
  rw [updateEvent_eq d h, State.takeEvent, takeCommand_ok s _ _ _ (decodeOfEncode _), exec_updateInstr s d keyed h]

/-- Running UPDATEs one after the other leaves what one UPDATE of the joined payloads leaves, but for stale bytes. -/
theorem run_updates (ms : List (List Byte)) (rest : List HostEvent) (s : State)
    (offered : s.pending = ms.map updateEvent ++ rest) (keyed : s.keyed = true) (idx_le : s.idx.toNat ≤ 16)
    (sizes : ∀ m ∈ ms, m.length ≤ 65535) :
    ∃ t, Host.Core.run core ms.length s = .next t ∧ t.pending = rest ∧
      t.SameButStale (s.appendMessage ms.flatten) := by
  induction ms generalizing s with
  | nil => exact ⟨s, rfl, offered, by rw [List.flatten_nil, s.appendMessage_nil]; exact .refl s⟩
  | cons m ms ih =>
    rw [List.forall_mem_cons] at sizes
    obtain ⟨size, sizes⟩ := sizes
    obtain ⟨s1, eq1⟩ : ∃ s1 : State, { s with pending := ms.map updateEvent ++ rest } = s1 := ⟨_, rfl⟩
    have same1 : s1.SameButStale s := eq1 ▸ withPending_sameButStale s _
    have keyed1 : s1.keyed = true := same1.keyed_eq.trans keyed
    have idx_le1 : s1.idx.toNat ≤ 16 := by rwa [same1.idx_eq]
    have stepped : step s = .next ((s1.appendMessage m).respond []) := by
      rw [← takeEvent_updateEvent s1 m keyed1 size, ← eq1]
      exact step_pending_cons s _ _ offered
    obtain ⟨t, run, left, same⟩ := ih ((s1.appendMessage m).respond []) (by simp [← eq1]) (by simp [keyed1])
      (s1.appendMessage_idx_le m idx_le1) sizes
    have answered : ((s1.appendMessage m).respond []).SameButStale (s.appendMessage m) :=
      (respond_sameButStale _ []).trans (same1.appendMessage m)
    exact ⟨t, (run_succ s _ _ stepped).trans run, left,
      same.trans ((answered.appendMessage _).trans (s.appendMessage_append m _ idx_le))⟩

/-- Settles O38: the run of either split leaves what one UPDATE of the whole sequence leaves, but for stale bytes. -/
theorem streamingEquivalence : Obligations.StreamingEquivalence := by
  intro s ms ns rest keyed idx_le sizes_ms sizes_ns joined
  obtain ⟨t, run_t, left_t, same_t⟩ :=
    run_updates ms rest { s with pending := ms.map updateEvent ++ rest } rfl keyed idx_le sizes_ms
  obtain ⟨u, run_u, left_u, same_u⟩ :=
    run_updates ns rest { s with pending := ns.map updateEvent ++ rest } rfl keyed idx_le sizes_ns
  have whole (evs : List HostEvent) (d : List Byte) :
      (State.appendMessage { s with pending := evs } d).SameButStale (s.appendMessage d) :=
    (withPending_sameButStale s evs).appendMessage d
  rw [← joined] at same_u
  replace same_t := same_t.trans (whole _ _)
  replace same_u := same_u.trans (whole _ _)
  have same : t.SameButStale u := same_t.trans same_u.symm
  have keyed_t : t.keyed = true := by rw [same_t.keyed_eq, s.appendMessage_keyed, keyed]
  refine ⟨t, u, run_t, run_u, left_t, left_u, same.x_eq, same.idx_eq, same.valid_eq,
    fun m holds => same_t.symm.holdsMessage (holds.appendMessage _), fun tlen tlen_ge tlen_le => ?_⟩
  exact ⟨_, _, _, exec_digest_accepted t tlen keyed_t tlen_ge tlen_le,
    exec_digest_accepted u tlen (same.keyed_eq ▸ keyed_t) tlen_ge tlen_le, t.digestTag_responses tlen,
    by rw [u.digestTag_responses tlen, same.tag_eq]⟩

end Sys2Proof.Machine

/-! PROOF. The engine over host events: what a host cannot tell apart (10_state.md R24, R25), the invariant every step
keeps, and the refinement of the CMAC view by step and by run (R21, R22, 20_memory.md R32, 43_digest.md R125). -/

namespace Sys2Proof.Machine

/-! ### Engines a host cannot tell apart -/

theorem State.SameButStale.respond {s t : State} (h : s.SameButStale t) (out out' : List Byte) :
    (s.respond out).SameButStale (t.respond out') :=
  (respond_sameButStale s out).trans (h.trans (respond_sameButStale t out').symm)

theorem State.SameButStale.reject {s t : State} (h : s.SameButStale t) (code code' : Status) :
    (s.reject code).SameButStale (t.reject code') :=
  (reject_sameButStale s code).trans (h.trans (reject_sameButStale t code').symm)

/-- An accepted command answers look-alike engines alike, and leaves registers that agree but for stale bytes: it loads
its own key, or a key was loaded before and it reads no stale byte (R11, R24). -/
theorem State.LookAlike.effect {s t : State} (h : s.LookAlike t) (i : Instr) (accepted : s.Accepts i) :
    (s.effect i).SameHostView (t.effect i) ∧ (s.effect i).SameButStale (t.effect i) := by
  obtain ⟨⟨pending, responses⟩, _, same⟩ := h
  cases i with
  | setkey128 tlen len p => exact ⟨⟨pending, congrArg (· ++ _) responses⟩, loadKey_sameButStale s t _ _⟩
  | setkey256 tlen len p => exact ⟨⟨pending, congrArg (· ++ _) responses⟩, loadKey_sameButStale s t _ _⟩
  | update tlen len p =>
    replace same := same (accepted.2 (.inl rfl))
    exact ⟨⟨by simp [pending], by simp [responses]⟩, (same.appendMessage p).respond _ _⟩
  | digest tlen len p =>
    replace same := same (accepted.2 (.inr rfl))
    exact ⟨⟨by simp [pending], by simp [responses, same.tag_eq]⟩, same.digestTag tlen tlen⟩

/-- Look-alike engines take a host event alike, and where their registers agreed but for stale bytes they still do. -/
theorem State.LookAlike.takeEvent {s t : State} (h : s.LookAlike t) (e : HostEvent) :
    ∃ s' t', s.takeEvent e = .next s' ∧ t.takeEvent e = .next t' ∧ s'.LookAlike t' ∧
      (s.SameButStale t → s'.SameButStale t') := by
  have ⟨⟨pending, responses⟩, keyed, same⟩ := h
  cases e with
  | reset =>
    have reset_same : s.takeReset.SameButStale t.takeReset := ⟨rfl, rfl, rfl, rfl, rfl, rfl, rfl, rfl⟩
    exact ⟨_, _, rfl, rfl, ⟨⟨pending, responses⟩, rfl, fun _ => reset_same⟩, fun _ => reset_same⟩
  | command w p =>
    cases check : admission w p s.keyed with
    | some code =>
      exact ⟨_, _, takeCommand_rejected s w p code check, takeCommand_rejected t w p code (keyed ▸ check),
        ⟨⟨pending, congrArg (· ++ _) responses⟩, keyed, fun loaded => (same loaded).reject code code⟩,
        fun same => same.reject code code⟩
    | none =>
      obtain ⟨i, dec, accepted, taken⟩ := takeCommand_accepted s w p check
      obtain ⟨j, dec', _, taken'⟩ := takeCommand_accepted t w p (keyed ▸ check)
      cases dec.symm.trans dec'
      obtain ⟨view, effect_same⟩ := h.effect i accepted
      exact ⟨_, _, taken, taken', ⟨view, effect_same.keyed_eq, fun _ => effect_same⟩, fun _ => effect_same⟩

theorem State.LookAlike.step {s t : State} (h : s.LookAlike t) :
    ∃ s' t', step s = .next s' ∧ step t = .next t' ∧ s'.LookAlike t' ∧ (s.SameButStale t → s'.SameButStale t') := by
  have ⟨⟨pending, responses⟩, keyed, same⟩ := h
  cases offered : s.pending with
  | nil => exact ⟨s, t, step_pending_nil s offered, step_pending_nil t (pending ▸ offered), h, id⟩
  | cons e rest =>
    rw [step_pending_cons s e rest offered, step_pending_cons t e rest (pending ▸ offered)]
    have taken (same : s.SameButStale t) :
        State.SameButStale { s with pending := rest } { t with pending := rest } :=
      (withPending_sameButStale s rest).trans (same.trans (withPending_sameButStale t rest).symm)
    have look : State.LookAlike { s with pending := rest } { t with pending := rest } :=
      ⟨⟨rfl, responses⟩, keyed, fun loaded => taken (same loaded)⟩
    obtain ⟨s', t', step_s, step_t, look', same'⟩ := look.takeEvent e
    exact ⟨s', t', step_s, step_t, look', fun same => same' (taken same)⟩

theorem State.LookAlike.run {s t : State} (h : s.LookAlike t) (n : Nat) :
    ∃ s' t' : State, Host.Core.run core n s = .next s' ∧ Host.Core.run core n t = .next t' ∧ s'.LookAlike t' ∧
      (s.SameButStale t → s'.SameButStale t') := by
  induction n generalizing s t with
  | zero => exact ⟨s, t, rfl, rfl, h, id⟩
  | succ n ih =>
    obtain ⟨s1, t1, step_s, step_t, look, same⟩ := h.step
    obtain ⟨s', t', run_s, run_t, look', same'⟩ := ih look
    exact ⟨s', t', (run_succ s s1 n step_s).trans run_s, (run_succ t t1 n step_t).trans run_t, look', same' ∘ same⟩

/-- Settles O41: such states look alike to the host, and the run keeps what agrees. -/
theorem staleBytesUnobservable : Obligations.StaleBytesUnobservable := by
  intro n s t view same
  have look : s.LookAlike t := ⟨view, same.keyed_eq, fun _ => same⟩
  obtain ⟨s', t', run_s, run_t, ⟨view', _⟩, same'⟩ := look.run n
  exact ⟨s', t', run_s, run_t, view', same' same⟩

/-- Settles O42: the run keeps engines look-alike. -/
theorem unkeyedContentsUnobservable : Obligations.UnkeyedContentsUnobservable := by
  intro n s t look
  obtain ⟨s', t', run_s, run_t, look', _⟩ := look.run n
  exact ⟨s', t', run_s, run_t, look'⟩

/-! ### The invariant -/

/-- The invariant is about the registers and the responses. -/
theorem State.Inv.withHostFields {s : State} (inv : s.Inv) (pending : List HostEvent) (responses : List Response)
    (out_le : ∀ r ∈ responses, r.out.length ≤ 16) (out_rejected : ∀ r ∈ responses, r.status ≠ .ok → r.out = []) :
    State.Inv { s with pending := pending, responses := responses } :=
  { inv with out_le := out_le, out_rejected := out_rejected }

/-- One more response keeps the bounds on responses where it meets them. -/
theorem State.Inv.responses_append {s : State} (inv : s.Inv) (r : Response) (le : r.out.length ≤ 16)
    (rejected : r.status ≠ .ok → r.out = []) :
    (∀ r' ∈ s.responses ++ [r], r'.out.length ≤ 16) ∧
      ∀ r' ∈ s.responses ++ [r], r'.status ≠ .ok → r'.out = [] := by
  simp only [List.forall_mem_append, List.forall_mem_singleton]
  exact ⟨⟨inv.out_le, le⟩, inv.out_rejected, rejected⟩

theorem State.Inv.reject {s : State} (inv : s.Inv) (code : Status) : (s.reject code).Inv := by
  obtain ⟨out_le, out_rejected⟩ := inv.responses_append ⟨code, []⟩ (Nat.zero_le _) fun _ => rfl
  exact inv.withHostFields s.pending _ out_le out_rejected

/-- The invariant of a keyed engine that has answered OK. -/
theorem State.Inv.of_answered {s t : State} (inv : s.Inv) (keyed : t.keyed = true) (idx_le : t.idx.toNat ≤ 16)
    (k1 : t.k1 = mulX (t.enc Block.zero)) (k2 : t.k2 = mulX t.k1)
    (tail : t.csel = .aes128 → t.key.toList.drop 16 = List.replicate 16 0) (empty : t.idx = 0 → t.x = Block.zero)
    (out : List Byte) (answered : t.responses = s.responses ++ [⟨.ok, out⟩]) (out_le : out.length ≤ 16) : t.Inv := by
  have fresh {P : Prop} (unkeyed : t.keyed = false) : P := absurd keyed (by simp [unkeyed])
  obtain ⟨out_le, out_rejected⟩ := inv.responses_append ⟨.ok, out⟩ out_le (absurd rfl)
  rw [← answered] at out_le out_rejected
  exact ⟨idx_le, fresh, fresh, fresh, fresh, fresh, fun _ => k1, fun _ => k2, fun _ => tail, empty, out_le,
    out_rejected⟩

theorem State.Inv.loadKey {s : State} (inv : s.Inv) (c : CipherSel) (key : KeyMaterial)
    (tail : c = .aes128 → key.toList.drop 16 = List.replicate 16 0) : (s.loadKey c key).Inv :=
  inv.of_answered rfl (Nat.zero_le _) rfl rfl tail (fun _ => rfl) [] rfl (Nat.zero_le _)

/-- UPDATE leaves IDX at 0 only where it appends nothing to nothing, and then X is as it was (R100). -/
theorem State.Inv.appendMessage_empty {s : State} (inv : s.Inv) (p : List Byte) (h : (s.appendMessage p).idx = 0) :
    (s.appendMessage p).x = Block.zero := by
  have count := s.toNat_appendMessage_idx p inv.idx_le
  rw [h, eq_comm] at count
  have none_held : s.idx.toNat + p.length = 0 := (heldCount_eq_zero _).mp count
  have empty : p = [] := List.eq_nil_of_length_eq_zero (by omega)
  rw [empty, s.appendMessage_nil]
  exact inv.empty_x (BitVec.eq_of_toNat_eq (show s.idx.toNat = 0 by omega))

theorem State.Inv.update {s : State} (inv : s.Inv) (keyed : s.keyed = true) (p : List Byte) :
    ((s.appendMessage p).respond []).Inv :=
  inv.of_answered (by simp [keyed]) (s.appendMessage_idx_le p inv.idx_le) (by simp [inv.keyed_k1 keyed])
    (by simp [inv.keyed_k2 keyed]) (by simpa using inv.key_tail keyed) (inv.appendMessage_empty p) [] (by simp)
    (Nat.zero_le _)

theorem State.Inv.digestTag {s : State} (inv : s.Inv) (keyed : s.keyed = true) (tlen : BitVec 8) :
    (s.digestTag tlen).Inv :=
  inv.of_answered (by simp [keyed]) (by simp) (by simp [inv.keyed_k1 keyed]) (by simp [inv.keyed_k2 keyed])
    (by simpa using inv.key_tail keyed) (by simp) _ (s.digestTag_responses tlen) (by simp)

theorem State.Inv.effect {s : State} (inv : s.Inv) (i : Instr) (accepted : s.Accepts i) : (s.effect i).Inv := by
  cases i with
  | setkey128 tlen len p =>
    obtain ⟨_, payload, length⟩ := (s.accepts_setkey128 tlen len p).mp accepted
    rw [length] at payload
    refine inv.loadKey _ _ fun _ => ?_
    rw [toList_key128 p payload, ← payload, List.drop_left]
  | setkey256 tlen len p => exact inv.loadKey _ _ nofun
  | update tlen len p => exact inv.update (accepted.2 (.inl rfl)) p
  | digest tlen len p => exact inv.digestTag (accepted.2 (.inr rfl)) tlen

/-- Settles O39: reset is unkeyed with every register of R25 zero, and it has answered nothing. -/
theorem resetMeetsInvariant : Obligations.ResetMeetsInvariant where
  idx_le := Nat.zero_le _
  fresh_k1 _ := rfl
  fresh_k2 _ := rfl
  fresh_x _ := rfl
  fresh_buf _ := rfl
  fresh_idx _ := rfl
  keyed_k1 := nofun
  keyed_k2 := nofun
  key_tail := nofun
  empty_x _ := rfl
  out_le := nofun
  out_rejected := nofun

theorem State.Inv.takeEvent {s t : State} (inv : s.Inv) (e : HostEvent) (h : s.takeEvent e = .next t) : t.Inv := by
  cases e with
  | reset =>
    cases h
    exact { resetMeetsInvariant with out_le := inv.out_le, out_rejected := inv.out_rejected }
  | command w p =>
    obtain ⟨i, _, accepted, rfl⟩ | ⟨code, _, _, rfl⟩ := takeCommand_cases s t w p h
    · exact inv.effect i accepted
    · exact inv.reject code

/-- Settles O40: waiting keeps the state, and each host event keeps the invariant. -/
theorem stepKeepsInvariant : Obligations.StepKeepsInvariant := by
  intro s t inv stepped
  cases offered : s.pending with
  | nil =>
    cases (step_pending_nil s offered).symm.trans stepped
    exact inv
  | cons e rest =>
    rw [step_pending_cons s e rest offered] at stepped
    exact (inv.withHostFields rest s.responses inv.out_le inv.out_rejected).takeEvent e stepped

/-! ### The CMAC view -/

theorem State.SameButStale.shows {s t : State} (h : s.SameButStale t) {v : MacView} (shows' : s.Shows v) :
    t.Shows v where
  keyed_eq := by rw [← h.keyed_eq, shows'.keyed_eq]
  csel_eq := by rw [← h.csel_eq]; exact shows'.csel_eq
  key_eq := by rw [← h.key_eq]; exact shows'.key_eq
  k1_eq := by rw [← h.keyed_eq, ← h.k1_eq, ← h.enc_eq]; exact shows'.k1_eq
  k2_eq := by rw [← h.keyed_eq, ← h.k1_eq, ← h.k2_eq]; exact shows'.k2_eq
  holds keyed := h.holdsMessage (shows'.holds (h.keyed_eq.trans keyed))

theorem shows_none (s : State) (unkeyed : s.keyed = false) : s.Shows ⟨none, []⟩ where
  keyed_eq := unkeyed
  csel_eq := nofun
  key_eq := nofun
  k1_eq keyed := absurd keyed (by simp [unkeyed])
  k2_eq keyed := absurd keyed (by simp [unkeyed])
  holds keyed := absurd keyed (by simp [unkeyed])

theorem loadKey_shows (s : State) (c : CipherSel) (key : KeyMaterial) :
    (s.loadKey c key).Shows ⟨some (c, key), []⟩ where
  keyed_eq := rfl
  csel_eq := by simp
  key_eq := by simp
  k1_eq _ := rfl
  k2_eq _ := rfl
  holds _ := loadKey_holdsMessage s c key

theorem State.Shows.appendMessage {s : State} {v : MacView} (h : s.Shows v) (p : List Byte) :
    (s.appendMessage p).Shows { v with message := v.message ++ p } where
  keyed_eq := by rw [s.appendMessage_keyed, h.keyed_eq]
  csel_eq := by rw [s.appendMessage_csel]; exact h.csel_eq
  key_eq := by rw [s.appendMessage_key]; exact h.key_eq
  k1_eq := by rw [s.appendMessage_keyed, s.appendMessage_k1, s.appendMessage_enc]; exact h.k1_eq
  k2_eq := by rw [s.appendMessage_keyed, s.appendMessage_k1, s.appendMessage_k2]; exact h.k2_eq
  holds keyed := (h.holds (by rwa [s.appendMessage_keyed] at keyed)).appendMessage p

theorem State.Shows.digestTag {s : State} {v : MacView} (h : s.Shows v) (tlen : BitVec 8) :
    (s.digestTag tlen).Shows { v with message := [] } where
  keyed_eq := by rw [s.digestTag_keyed, h.keyed_eq]
  csel_eq := by rw [s.digestTag_csel]; exact h.csel_eq
  key_eq := by rw [s.digestTag_key]; exact h.key_eq
  k1_eq := by rw [s.digestTag_keyed, s.digestTag_k1, s.digestTag_enc]; exact h.k1_eq
  k2_eq := by rw [s.digestTag_keyed, s.digestTag_k1, s.digestTag_k2]; exact h.k2_eq
  holds _ := digestTag_holdsMessage s tlen

/-- The tag block of an engine that shows a context and a message is the CMAC of the message (R125). -/
theorem State.Shows.tag_eq {s : State} {v : MacView} (h : s.Shows v) (keyed : s.keyed = true) (c : CipherSel)
    (key : KeyMaterial) (context : v.context = some (c, key)) :
    s.enc (blockXor s.x s.lastBlock) = cmac c key v.message := by
  have enc : s.enc = encUnder c key := by
    funext b
    rw [State.enc, h.csel_eq c key context, h.key_eq c key context]
  rw [(h.holds keyed).tag_eq, h.k2_eq keyed, h.k1_eq keyed, enc, cmac]

/-- An accepted request takes the view to the one the registers show after its command, and answers as the view. -/
theorem State.Shows.effect {s : State} {v : MacView} (h : s.Shows v) (w : BitVec 32) (p : List Byte) (i : Instr)
    (pass : admission w p s.keyed = none) (dec : decode w p = .ok i) (accepted : s.Accepts i) :
    (s.effect i).Shows (v.take (.command w p)).1 ∧
      (s.effect i).responses = s.responses ++ (v.take (.command w p)).2 := by
  rw [h.keyed_eq] at pass
  obtain ⟨opc, dec'⟩ | ⟨opc, dec'⟩ | ⟨opc, dec'⟩ | ⟨opc, dec'⟩ | ⟨_, dec'⟩ := decode_cases w p
  · cases dec'.symm.trans dec
    have taken : v.take (.command w p) = (⟨some (.aes128, key128 p), []⟩, [⟨.ok, []⟩]) := by
      simp [MacView.take, pass, opc]
    rw [taken]
    exact ⟨loadKey_shows s _ _, s.loadKey_responses _ _⟩
  · cases dec'.symm.trans dec
    have taken : v.take (.command w p) = (⟨some (.aes256, key256 p), []⟩, [⟨.ok, []⟩]) := by
      simp [MacView.take, pass, opc]
    rw [taken]
    exact ⟨loadKey_shows s _ _, s.loadKey_responses _ _⟩
  · cases dec'.symm.trans dec
    have taken : v.take (.command w p) = ({ v with message := v.message ++ p }, [⟨.ok, []⟩]) := by
      simp [MacView.take, pass, opc]
    rw [taken]
    exact ⟨(respond_sameButStale _ []).symm.shows (h.appendMessage p), by simp⟩
  · cases dec'.symm.trans dec
    have keyed : s.keyed = true := accepted.2 (.inr rfl)
    obtain ⟨⟨c, key⟩, context⟩ := Option.isSome_iff_exists.mp (h.keyed_eq.symm.trans keyed)
    have taken : v.take (.command w p) =
        ({ v with message := [] }, [⟨.ok, (cmac c key v.message).toList.take (tlenField w).toNat⟩]) := by
      rw [MacView.take, pass]
      simp [opc, context]
    rw [taken, ← h.tag_eq keyed c key context]
    exact ⟨h.digestTag _, s.digestTag_responses _⟩
  · cases dec'.symm.trans dec

theorem State.Shows.takeEvent {s : State} {v : MacView} (h : s.Shows v) (e : HostEvent) :
    ∃ t, s.takeEvent e = .next t ∧ t.Shows (v.take e).1 ∧ t.responses = s.responses ++ (v.take e).2 ∧
      t.pending = s.pending := by
  cases e with
  | reset => exact ⟨s.takeReset, rfl, shows_none _ rfl, (List.append_nil _).symm, rfl⟩
  | command w p =>
    cases check : admission w p s.keyed with
    | some code =>
      have taken : v.take (.command w p) = (v, [⟨code, []⟩]) := by
        rw [h.keyed_eq] at check
        simp [MacView.take, check]
      rw [taken]
      exact ⟨_, takeCommand_rejected s w p code check, (reject_sameButStale s code).symm.shows h, rfl, rfl⟩
    | none =>
      obtain ⟨i, dec, accepted, taken⟩ := takeCommand_accepted s w p check
      obtain ⟨shows', answered⟩ := h.effect w p i check dec accepted
      exact ⟨_, taken, shows', answered, (commandFrames i s _ (exec_accepted s i accepted)).1⟩

/-- Settles O43: the step takes the event, and each kind of event refines the view. -/
theorem stepRefinesMac : Obligations.StepRefinesMac := by
  intro s v e rest h offered
  rw [step_pending_cons s e rest offered]
  exact ((withPending_sameButStale s rest).symm.shows h).takeEvent e

theorem State.Shows.run {s : State} {v : MacView} (h : s.Shows v) (evs rest : List HostEvent)
    (offered : s.pending = evs ++ rest) :
    ∃ t : State, Host.Core.run core evs.length s = .next t ∧ t.Shows (v.takeAll evs).1 ∧
      t.responses = s.responses ++ (v.takeAll evs).2 ∧ t.pending = rest := by
  induction evs generalizing s v with
  | nil => exact ⟨s, rfl, h, (List.append_nil _).symm, offered⟩
  | cons e evs ih =>
    obtain ⟨s1, stepped, shows1, answered1, left1⟩ := stepRefinesMac s v e (evs ++ rest) h offered
    obtain ⟨t, run, shows', answered, left⟩ := ih shows1 left1
    exact ⟨t, (run_succ s s1 _ stepped).trans run, shows',
      by rw [answered, answered1, List.append_assoc, MacView.takeAll], left⟩

/-- Settles O44: the run is the steps one after the other, each refining the view. -/
theorem runAnswersMac : Obligations.RunAnswersMac :=
  ⟨shows_none _ rfl, fun evs rest s _ h =>
    ((withPending_sameButStale s (evs ++ rest)).symm.shows h).run evs rest rfl⟩

end Sys2Proof.Machine

/-! PROOF. The block operators (00_scope.md R6, 40_block_ops.md R63 to R65): Blocks as numbers, XOR, and mul_x byte by
byte. -/

namespace Sys2Proof.Machine

/-! ### Blocks and their numbers -/

/-- Two bytes are equal where their eight bits are. -/
theorem byte_eq_of_bits (a b : Byte) (h : ∀ r, r < 8 → a.getLsbD r = b.getLsbD r) : a = b :=
  BitVec.eq_of_getLsbD_eq h

theorem intBlock_blockInt (b : Block) : intBlock (blockInt b) = b := by
  ext i hi : 1
  refine byte_eq_of_bits _ _ fun r hr => ?_
  rw [getLsbD_intBlock _ i r hi hr, getLsbD_blockInt b (15 - i) r (by omega) hr]
  congr 2
  omega

theorem blockInt_intBlock (n : BitVec 128) : blockInt (intBlock n) = n := by
  refine BitVec.eq_of_getLsbD_eq fun k hk => ?_
  obtain ⟨q, r, hr, rfl⟩ : ∃ q r, r < 8 ∧ k = 8 * q + r := ⟨k / 8, k % 8, by omega, by omega⟩
  rw [getLsbD_blockInt _ q r (by omega) hr, getLsbD_intBlock _ _ r (by omega) hr]
  congr 1
  omega

/-- One step of the big-endian reading on numbers, as long as the old number leaves eight bits free. -/
theorem toNat_shift_or (v : BitVec 128) (x : Byte) (h : v.toNat < 2 ^ 120) :
    (v <<< 8 ||| x.setWidth 128).toNat = 2 ^ 8 * v.toNat + x.toNat := by
  have low : x.toNat < 2 ^ 8 := x.isLt
  rw [BitVec.toNat_or, BitVec.toNat_shiftLeft, BitVec.toNat_setWidth, Nat.mod_eq_of_lt (a := x.toNat) (by omega),
    Nat.mod_eq_of_lt (by rw [Nat.shiftLeft_eq]; omega), ← Nat.shiftLeft_add_eq_or_of_lt low, Nat.shiftLeft_eq,
    Nat.mul_comm]

/-- The reading of bytes on numbers, as long as all of them fit. -/
theorem toNat_foldl_bytes (l : List Byte) (k : Nat) (v : BitVec 128) (fits : k + l.length ≤ 16)
    (h : v.toNat < 2 ^ (8 * k)) :
    (l.foldl (fun (v : BitVec 128) (x : Byte) => v <<< 8 ||| x.setWidth 128) v).toNat =
      l.foldl (fun n x => 2 ^ 8 * n + x.toNat) v.toNat := by
  induction l generalizing k v with
  | nil => rfl
  | cons x l ih =>
    rw [List.length_cons] at fits
    have step := toNat_shift_or v x (lt_of_lt_of_le h (Nat.pow_le_pow_right (by omega) (by omega)))
    have bound : 2 ^ 8 * v.toNat + x.toNat < 2 ^ (8 * (k + 1)) := by
      have low : x.toNat < 2 ^ 8 := x.isLt
      rw [Nat.mul_add, Nat.pow_add]
      omega
    rw [List.foldl_cons, List.foldl_cons, ← step]
    exact ih (k + 1) _ (by omega) (by rwa [step])

/-- Reading digits of base 256 from the most significant one down sums them with their weights. -/
theorem foldl_digits (n : Nat) (f : Fin n → Nat) :
    (List.finRange n).foldl (fun m i => 2 ^ 8 * m + f i) 0 = ∑ i, f i * 2 ^ (8 * (n - 1 - i.val)) := by
  induction n with
  | zero => rfl
  | succ n ih =>
    rw [List.finRange_succ_last, List.foldl_append, List.foldl_map, ih fun i => f i.castSucc, Fin.sum_univ_castSucc,
      List.foldl_cons, List.foldl_nil, Finset.mul_sum]
    congr 1
    · refine Finset.sum_congr rfl fun i _ => ?_
      rw [Fin.val_castSucc, show 8 * (n + 1 - 1 - i.val) = 8 + 8 * (n - 1 - i.val) by omega, Nat.pow_add,
        Nat.mul_left_comm]
    · simp

theorem toNat_blockInt (b : Block) : (blockInt b).toNat = ∑ i : Fin 16, b[i].toNat * 2 ^ (8 * (15 - i.val)) := by
  have bytes : blockInt b =
      ((List.finRange 16).map (b[·])).foldl (fun (v : BitVec 128) (x : Byte) => v <<< 8 ||| x.setWidth 128) 0 := by
    rw [List.foldl_map]
    rfl
  rw [bytes, toNat_foldl_bytes _ 0 0 (by simp) (by simp), List.foldl_map]
  exact foldl_digits 16 fun i => b[i].toNat

/-- Settles O45: the sum, and both inverses bit by bit. -/
theorem blockNumberReading : Obligations.BlockNumberReading :=
  ⟨toNat_blockInt, intBlock_blockInt, blockInt_intBlock⟩

/-- Settles O46: the three laws of the byte-wise XOR. -/
theorem xorByByte : Obligations.XorByByte :=
  fun a b => ⟨getElem_blockXor a b, blockXor_self a, blockXor_zero a⟩

/-! ### mul_x byte by byte (R65) -/

/-- Bit 8*q + r of the shifted number is the bit below it: in byte 15 - q, or bit 7 of the byte after that one. -/
theorem getLsbD_shiftLeft_blockInt (b : Block) (q r : Nat) (hq : q < 16) (hr : r < 8) :
    (blockInt b <<< 1).getLsbD (8 * q + r) =
      if 0 < r then b[15 - q].getLsbD (r - 1)
      else if h : 0 < q then b[15 - q + 1].getLsbD 7
      else false := by
  rw [BitVec.getLsbD_shiftLeft]
  by_cases bit : 0 < r
  · rw [if_pos bit, show 8 * q + r - 1 = 8 * q + (r - 1) by omega, getLsbD_blockInt b q (r - 1) hq (by omega)]
    simp [show 8 * q + r < 128 by omega, show r ≠ 0 by omega]
  · obtain rfl : r = 0 := by omega
    by_cases byte : 0 < q
    · have before := getLsbD_blockInt b (q - 1) 7 (by omega) (by omega)
      rw [if_neg bit, dif_pos byte, show 8 * q + 0 - 1 = 8 * (q - 1) + 7 by omega, before]
      simp [show 8 * q < 128 by omega, show q ≠ 0 by omega, show 15 - (q - 1) = 15 - q + 1 by omega]
    · rw [if_neg bit, dif_neg byte]
      simp [show q = 0 by omega]

theorem msb_blockInt (b : Block) : (blockInt b).msb = b[0].getLsbD 7 := by
  rw [BitVec.msb_eq_getLsbD_last]
  exact getLsbD_blockInt b 15 7 (by omega) (by omega)

/-- Bit 8*q + r of mul_x is that of the shifted number, with the bits of 0x87 flipped where the top bit was set. -/
theorem getLsbD_mulX (b : Block) (i r : Nat) (hi : i < 16) (hr : r < 8) :
    (mulX b)[i].getLsbD r = ((blockInt b <<< 1).getLsbD (8 * (15 - i) + r) ^^
      (b[0].getLsbD 7 && (0x87#8).getLsbD (8 * (15 - i) + r))) := by
  have constant : Config.rb.getLsbD (8 * (15 - i) + r) = (0x87#8).getLsbD (8 * (15 - i) + r) := by
    rw [show Config.rb = (0x87#8).setWidth 128 from rfl, BitVec.getLsbD_setWidth]
    simp [show 8 * (15 - i) + r < 128 by omega]
  simp only [mulX, msb_blockInt]
  rw [getLsbD_intBlock _ i r hi hr]
  split
  next set => rw [BitVec.getLsbD_xor, constant, set, Bool.true_and]
  next clear => rw [Bool.eq_false_iff.mpr clear, Bool.false_and, Bool.xor_false]

theorem shiftRight_seven_eq_one (x : Byte) : x >>> 7 = 1 ↔ x.getLsbD 7 = true := by
  revert x
  decide

theorem getLsbD_shiftLeft_one (x : Byte) (r : Nat) (h : r < 8) :
    (x <<< 1).getLsbD r = if 0 < r then x.getLsbD (r - 1) else false := by
  rw [BitVec.getLsbD_shiftLeft]
  cases r with
  | zero => rfl
  | succ r => simp [h]

theorem getLsbD_shiftRight_seven (x : Byte) (r : Nat) :
    (x >>> 7).getLsbD r = if 0 < r then false else x.getLsbD 7 := by
  rw [BitVec.getLsbD_ushiftRight]
  cases r with
  | zero => rfl
  | succ r => exact BitVec.getLsbD_of_ge _ _ (by omega)

/-- Settles O47: bit by bit, the bytes before the last take the next byte's top bit, and the last byte the constant. -/
theorem mulXByteByByte : Obligations.MulXByteByByte := by
  intro b
  ext i hi : 1
  refine byte_eq_of_bits _ _ fun r hr => ?_
  rw [getLsbD_mulX b i r hi hr, getLsbD_shiftLeft_blockInt b (15 - i) r (by omega) hr, mulXBytes, Vector.getElem_ofFn]
  by_cases last : i < 15
  · have past : (0x87#8).getLsbD (8 * (15 - i) + r) = false := BitVec.getLsbD_of_ge _ _ (by omega)
    simp only [dif_pos last, past, Bool.and_false, Bool.xor_false, BitVec.getLsbD_or, getLsbD_shiftLeft_one _ r hr,
      getLsbD_shiftRight_seven, show 15 - (15 - i) = i by omega, show 0 < 15 - i by omega, dif_pos]
    split
    · exact (Bool.or_false _).symm
    · exact (Bool.false_or _).symm
  · obtain rfl : i = 15 := by omega
    simp only [dif_neg last, BitVec.getLsbD_xor, getLsbD_shiftLeft_one _ r hr, shiftRight_seven_eq_one]
    cases b[0].getLsbD 7 with
    | true => simp
    | false => simp

end Sys2Proof.Machine

/-! PROOF. AES (44_aes.md R141 to R151): the S-box, the round steps by row and column, the key schedule, and the
rounds. -/

namespace Sys2Proof.Machine

/-! ### The key of AES-128 (R12, R61) -/

/-- Settles O48: the cipher is given the first 16 key bytes alone. -/
theorem aes128ReadsLowKeyHalf : Obligations.Aes128ReadsLowKeyHalf := by
  intro key key' b agree
  have low : key.toList.take 16 = key'.toList.take 16 := by
    apply List.ext_getElem
    · rw [List.length_take, List.length_take, Vector.length_toList, Vector.length_toList]
    intro i lt _
    rw [List.getElem_take, List.getElem_take, Vector.getElem_toList, Vector.getElem_toList]
    exact agree i (by rw [List.length_take] at lt; omega)
  rw [encUnder, encUnder, Config.keyBytes128, low]

/-! ### The S-box (R144) -/

/-- The affine map of R144 undone: of a non-zero byte's S-box value it is the byte's inverse in GF(2^8). -/
def affineInverse (s : Byte) : Byte := s.rotateLeft 1 ^^^ s.rotateLeft 3 ^^^ s.rotateLeft 6 ^^^ 0x05

/-- Evaluated in the kernel, over all 256 bytes. -/
theorem sbox_inverse : ∀ a : Byte, a ≠ 0 → gfMul a (affineInverse (sbox a)) = 1 := by decide +kernel

theorem sbox_affine : ∀ a : Byte, sbox a = sboxAffine (affineInverse (sbox a)) := by decide +kernel

/-- Settles O49: the inverse is the S-box value with the affine map undone. -/
theorem sboxIsAffineInverse : Obligations.SboxIsAffineInverse :=
  ⟨rfl, fun a nonzero => ⟨affineInverse (sbox a), sbox_inverse a nonzero, sbox_affine a⟩⟩

/-! ### The round steps (R145 to R148) -/

theorem gfMul_two : ∀ b : Byte, gfMul 2 b = xtime b := by decide +kernel

theorem gfMul_three : ∀ b : Byte, gfMul 3 b = mul3 b := by decide +kernel

theorem getElem_addRoundKey (w : List AesWord) (rd : Nat) (s : Block) (r c : Nat) (hr : r < 4) (hc : c < 4) :
    (addRoundKey w rd s)[r + 4 * c] = s[r + 4 * c] ^^^ (w.getD (4 * rd + c) zeroWord)[r] := by
  simp only [addRoundKey, Vector.getElem_ofFn, Fin.getElem_fin, show (r + 4 * c) / 4 = c by omega,
    show (r + 4 * c) % 4 = r by omega]

theorem getElem_shiftRows (s : Block) (r c : Nat) (hr : r < 4) (hc : c < 4) :
    (shiftRows s)[r + 4 * c] = s[r + 4 * ((c + r) % 4)] := by
  simp only [shiftRows, Vector.getElem_ofFn, show (r + 4 * c) / 4 = c by omega, show (r + 4 * c) % 4 = r by omega]

/-- Row r of a column after MixColumns, rows counted modulo 4 from r on. -/
theorem getElem_mixColumns (s : Block) (r c : Nat) (hr : r < 4) (hc : c < 4) :
    (mixColumns s)[4 * c + r] = gfMul 2 s[4 * c + r] ^^^ gfMul 3 s[4 * c + (r + 1) % 4] ^^^
      s[4 * c + (r + 2) % 4] ^^^ s[4 * c + (r + 3) % 4] := by
  simp only [mixColumns, Vector.getElem_ofFn, gfMul_two, gfMul_three, show (4 * c + r) / 4 = c by omega,
    show (4 * c + r) % 4 = r by omega, Nat.add_zero, Nat.mod_eq_of_lt hr, Nat.add_comm _ (4 * c)]

/-- Settles O50: each step by row and column, the four rows of MixColumns with the terms in the order of R147. -/
theorem roundStepsByRowAndColumn : Obligations.RoundStepsByRowAndColumn := by
  intro s w rd r c
  refine ⟨getElem_addRoundKey w rd s r c r.isLt c.isLt, Vector.getElem_map _ _, getElem_shiftRows s r c r.isLt c.isLt,
    getElem_mixColumns s 0 c (by omega) c.isLt, ?_, ?_, ?_⟩
  · rw [getElem_mixColumns s 1 c (by omega) c.isLt]
    ac_rfl
  · rw [getElem_mixColumns s 2 c (by omega) c.isLt]
    ac_rfl
  · rw [getElem_mixColumns s 3 c (by omega) c.isLt]
    ac_rfl

/-! ### The key schedule (R149, R150) -/

theorem rcon_eq (k : Nat) (pos : 1 ≤ k) (le : k ≤ 10) :
    rcon k = ([0x01, 0x02, 0x04, 0x08, 0x10, 0x20, 0x40, 0x80, 0x1b, 0x36] : List Byte).getD (k - 1) 0 := by
  interval_cases k <;> rfl

theorem toList_keyWords (nk : Nat) (key : List Byte) (length : key.length = 4 * nk) (i : Nat) (h : i < nk) :
    ((keyWords nk key).getD i zeroWord).toList = (key.drop (4 * i)).take 4 := by
  have word : (keyWords nk key).getD i zeroWord = Vector.ofFn fun j : Fin 4 => key.getD (4 * i + j.val) 0 := by
    rw [List.getD_eq_getElem _ _ (by rwa [length_keyWords])]
    simp [keyWords]
  rw [word]
  apply List.ext_getElem
  · rw [Vector.length_toList, List.length_take, List.length_drop]
    omega
  intro j lt _
  rw [Vector.length_toList] at lt
  rw [Vector.getElem_toList, Vector.getElem_ofFn, List.getElem_take, List.getElem_drop,
    List.getD_eq_getElem _ _ (by simp only; omega)]

/-- Settles O51: the schedule's own recurrence, with Rcon from its table. -/
theorem keyScheduleRecurrence : Obligations.KeyScheduleRecurrence := by
  intro nk nr key sizes length
  obtain ⟨total, first, rule⟩ := keySchedule_spec nk nr key (by omega) (by omega)
  refine ⟨total, fun i lt => ?_, fun i j lo hi => ?_⟩
  · rw [first i lt, toList_keyWords nk key length i lt]
  · have rounds : 1 ≤ i / nk ∧ i / nk ≤ 10 := by
      obtain ⟨rfl, rfl⟩ | ⟨rfl, rfl⟩ := sizes <;> omega
    have subOnly : nk = 8 ∧ i % nk = 4 ↔ nk = 8 ∧ i % 8 = 4 := and_congr_right fun eq => by rw [eq]
    simp only [Fin.getElem_fin, Fin.ext_iff, Fin.val_zero]
    conv_lhs => rw [rule i lo hi]
    rw [getElem_wordXor, getElem_scheduleMix, rcon_eq _ rounds.1 rounds.2]
    simp only [subOnly]

/-! ### The rounds (R151) -/

/-- The Block after the first key addition and the rounds 1 to rd. -/
def afterRounds (w : List AesWord) (b : Block) (rd : Nat) : Block :=
  (List.range' 1 rd).foldl (aesRound w) (addRoundKey w 0 b)

theorem afterRounds_succ (w : List AesWord) (b : Block) (rd : Nat) :
    afterRounds w b (rd + 1) = aesRound w (afterRounds w b rd) (rd + 1) := by
  rw [afterRounds, List.range'_1_concat, List.foldl_append, Nat.add_comm 1 rd]
  rfl

/-- The cipher is its rounds, the last one without MixColumns. -/
theorem aesCipher_rounds (nr : Nat) (w : List AesWord) (b : Block) :
    ∃ st : Nat → Block, st 0 = addRoundKey w 0 b ∧
      (∀ rd, 1 ≤ rd → rd ≤ nr - 1 → st rd = addRoundKey w rd (mixColumns (shiftRows (subBytes (st (rd - 1)))))) ∧
      aesCipher nr w b = addRoundKey w nr (shiftRows (subBytes (st (nr - 1)))) := by
  refine ⟨afterRounds w b, rfl, fun rd pos _ => ?_, rfl⟩
  obtain ⟨k, rfl⟩ : ∃ k, rd = k + 1 := ⟨rd - 1, by omega⟩
  exact afterRounds_succ w b k

/-- Settles O52: both ciphers are the rounds, over the schedule of their key size. -/
theorem cipherRounds : Obligations.CipherRounds := by
  intro key b
  rw [aes128Encrypt, aes256Encrypt]
  exact ⟨fun _ => aesCipher_rounds 10 _ b, fun _ => aesCipher_rounds 14 _ b⟩

end Sys2Proof.Machine
